-- ==== Sys2Proof/Word.lean ====
section
/-! DEFINITION. The word types of CTMP-FV (spec/00_scope.md R8, R10, R13) and the eight header bytes as one value. -/

namespace Sys2Proof

/-- A byte; bit 7 is the most significant (R8). -/
abbrev Byte := BitVec 8

/-- A 16-bit number: the length field, a checksum, a word of the sum (R13). -/
abbrev Word16 := BitVec 16

/-- A 32-bit number: the accumulator, and the last four header bytes taken together. -/
abbrev Word32 := BitVec 32

/-- The header as one 64-bit word `H`: header byte 0 in bits 63:56, byte 7 in bits 7:0 (R10). -/
abbrev HeaderWord := BitVec 64

/-- Eight header bytes; `b0` is frame offset 0 (R21, R61). -/
structure HeaderBytes where
  b0 : Byte
  b1 : Byte
  b2 : Byte
  b3 : Byte
  b4 : Byte
  b5 : Byte
  b6 : Byte
  b7 : Byte
deriving DecidableEq, Repr

/-- Eight zero bytes: the header latch after reset and after the close (R35, R157). -/
def HeaderBytes.zero : HeaderBytes := ⟨0, 0, 0, 0, 0, 0, 0, 0⟩

end Sys2Proof
end

