-- ==== Sys2Proof/Config.lean ====
section
/-! DEFINITION. The constants of the format (spec/00_scope.md R6). All are fixed, none is a run-time or build-time option.
The placeholder is one named constant, as 92_eei_decisions.md D19 asks. They are abbreviations, so that proofs see the
numbers. Nothing of this hardware is left to a free value (93_implementation_defined.md: "Nothing in the block is
unpredictable"). -/

namespace Sys2Proof.Config

/-- `MAGIC`: the required value of header byte 0 (R6). -/
abbrev magic : Byte := 0xCC

/-- `HDR_LEN`: bytes in a header (R6). -/
abbrev hdrLen : Nat := 8

/-- `OPT_RESERVED`: mask of the reserved bit of the options byte (R6). -/
abbrev optReserved : Byte := 0x80

/-- `OPT_SENSITIVE`: mask of the sensitive bit of the options byte (R6). -/
abbrev optSensitive : Byte := 0x40

/-- `OPT_PADDING`: mask of the six padding bits of the options byte (R6). -/
abbrev optPadding : Byte := 0x3F

/-- `LEN_MAX`: the largest body length (R6). -/
abbrev lenMax : Nat := 65535

/-- `CSUM_PLACEHOLDER`: what stands in for each of header bytes 4 and 5 when the checksum is computed (R6, R94; the
reading `0xCCCC` of the two bytes is the spec's decision D19, log entry 9). -/
abbrev csumPlaceholder : Byte := 0xCC

/-- The largest value `ACC` ever holds (R22, R33 item 6, R95). -/
abbrev accMax : Nat := 0x8002180C

end Sys2Proof.Config
end

