-- ==== Sys2Proof/Syntax.lean ====
section
/-! DEFINITION. The instructions of CTMP-FV: one constructor per row of spec/opcode_table.json, in the table's order
and its three formats (spec/30_encoding.md R60): seven header classes (`H64`), two beats (`B9`), ten functional
units (`FUNC`). A header class carries the fields its bit patterns leave free (R61, R68); its body is not encoded
and is read from the input stream. -/

namespace Sys2Proof

/-- One row of the opcode table, with its operands. -/
inductive Instr where
  /-- `FRM.PLAIN` (R161): `CC 00 LL LL 00 00 00 00`. -/
  | frmPlain (length : Word16)
  /-- `FRM.SENS` (R162): `CC 40 LL LL KK KK 00 00`. -/
  | frmSens (length claimed : Word16)
  /-- `REJ.RSVD` (R164): options bit 7 set; `low` is options bits 6:0, `tail` header bytes 4 to 7. -/
  | rejRsvd (low : BitVec 7) (length : Word16) (tail : Word32)
  /-- `REJ.PAD4` (R166): options byte `00`, `tail` (header bytes 4 to 7) not zero. -/
  | rejPad4 (length : Word16) (tail : Word32)
  /-- `REJ.PAD2` (R167): options byte `40`, header bytes 6 and 7 (`pad`) not zero. -/
  | rejPad2 (length checksum pad : Word16)
  /-- `REJ.PADBITS` (R165): options bit 7 clear, bits 5:0 (`padding`) not zero; `sens` is bit 6. -/
  | rejPadbits (sens : BitVec 1) (padding : BitVec 6) (length : Word16) (tail : Word32)
  /-- `REJ.MAGIC` (R163): header byte 0 (`magic`) is not `CC`. -/
  | rejMagic (magic options : Byte) (length : Word16) (tail : Word32)
  /-- `BYTE` (R72): the next byte of the producer's stream. -/
  | byte (b : Byte)
  /-- `EOS` (R72): the stream has ended. It carries no byte. -/
  | eos
  /-- `CSUM.SUM` (R91). -/
  | csumSum (data : List Byte)
  /-- `CSUM.FOLD` (R92). -/
  | csumFold (sum : Nat)
  /-- `CSUM.COMPUTE` (R93). -/
  | csumCompute (data : List Byte)
  /-- `CSUM.COVER` (R94). -/
  | csumCover (header : HeaderBytes) (body : List Byte)
  /-- `CSUM.VERIFY` (R97). -/
  | csumVerify (header : HeaderBytes) (body : List Byte) (claimed : Word16)
  /-- `CSUM.ABSORB` (R98). -/
  | csumAbsorb (acc : Word32) (ph : BitVec 1) (a : Byte)
  /-- `HDR.PARSE` (R120). -/
  | hdrParse (header : HeaderBytes)
  /-- `HDR.LEN` (R122). -/
  | hdrLen (header : HeaderBytes)
  /-- `HDR.SENS` (R123). -/
  | hdrSens (header : HeaderBytes)
  /-- `HDR.CLAIMED` (R124). -/
  | hdrClaimed (header : HeaderBytes)
deriving DecidableEq, Repr

/-- The three formats of the table's rows (R60; the table's `format`). -/
inductive Format where
  /-- 64 bits: a frame header. -/
  | h64
  /-- 9 bits: one input beat. -/
  | b9
  /-- No wire encoding: an internal functional unit. -/
  | func
deriving DecidableEq, Repr

/-- The format the table gives an instruction's row. -/
def Instr.format : Instr → Format
  | .frmPlain _ => .h64
  | .frmSens _ _ => .h64
  | .rejRsvd _ _ _ => .h64
  | .rejPad4 _ _ => .h64
  | .rejPad2 _ _ _ => .h64
  | .rejPadbits _ _ _ _ => .h64
  | .rejMagic _ _ _ _ => .h64
  | .byte _ => .b9
  | .eos => .b9
  | .csumSum _ => .func
  | .csumFold _ => .func
  | .csumCompute _ => .func
  | .csumCover _ _ => .func
  | .csumVerify _ _ _ => .func
  | .csumAbsorb _ _ _ => .func
  | .hdrParse _ => .func
  | .hdrLen _ => .func
  | .hdrSens _ => .func
  | .hdrClaimed _ => .func

end Sys2Proof
end

