-- ==== Sys2Proof/WellFormed.lean ====
section
/-! DEFINITION. Which terms of `Instr` are headers of their class (spec/30_encoding.md R68): a rejected class is
defined by a check that fails, so its term must fail that check. Operands of the other rows are free: any length
(R64), any claimed checksum (R65), any byte (R72), any operand of a functional unit. -/

namespace Sys2Proof

/-- The term is an instruction of its row. The checks are the conditions of R68 that the constructor's own shape
does not already fix. -/
def Instr.wellFormed : Instr → Bool
  | .frmPlain _ => true
  | .frmSens _ _ => true
  | .rejRsvd _ _ _ => true
  | .rejPad4 _ tail => tail != 0
  | .rejPad2 _ _ pad => pad != 0
  | .rejPadbits _ padding _ _ => padding != 0
  | .rejMagic magic _ _ _ => magic != Config.magic
  | .byte _ => true
  | .eos => true
  | .csumSum _ => true
  | .csumFold _ => true
  | .csumCompute _ => true
  | .csumCover _ _ => true
  | .csumVerify _ _ _ => true
  | .csumAbsorb _ _ _ => true
  | .hdrParse _ => true
  | .hdrLen _ => true
  | .hdrSens _ => true
  | .hdrClaimed _ => true

end Sys2Proof
end

