-- ==== Sys2Proof/Decode.lean ====
section
/-! DEFINITION. Decoding and encoding (spec/30_encoding.md): the byte-order helpers (R10), the first-match table of
header classes (R69), the disjoint patterns (R70), the fields of the header word (R61), the beat (R72), the decoder
over words and over stored bytes, and the encoder. -/

namespace Sys2Proof

/-! ### Byte order (R10, R43) -/

/-- `be16(hi, lo)`: the big-endian assembly of two bytes (R10). -/
def be16 (hi lo : Byte) : Word16 := hi ++ lo

/-- `hi8(w)` = `w[15:8]` (R10). -/
def hi8 (w : Word16) : Byte := w.extractLsb' 8 8

/-- `lo8(w)` = `w[7:0]` (R10). -/
def lo8 (w : Word16) : Byte := w.extractLsb' 0 8

/-- The header word `H` of eight bytes: byte 0 in bits 63:56 (R10). -/
def packHeader (h : HeaderBytes) : HeaderWord :=
  h.b0 ++ h.b1 ++ h.b2 ++ h.b3 ++ h.b4 ++ h.b5 ++ h.b6 ++ h.b7

/-- The eight bytes of a header word, in wire order (R10). -/
def unpackHeader (w : HeaderWord) : HeaderBytes where
  b0 := w.extractLsb' 56 8
  b1 := w.extractLsb' 48 8
  b2 := w.extractLsb' 40 8
  b3 := w.extractLsb' 32 8
  b4 := w.extractLsb' 24 8
  b5 := w.extractLsb' 16 8
  b6 := w.extractLsb' 8 8
  b7 := w.extractLsb' 0 8

/-- The eight bytes as a list in wire order. -/
def HeaderBytes.toList (h : HeaderBytes) : List Byte := [h.b0, h.b1, h.b2, h.b3, h.b4, h.b5, h.b6, h.b7]

/-- Eight bytes in wire order as a header; nothing else is one (R67: the header is always 8 bytes). -/
def HeaderBytes.ofList : List Byte → Option HeaderBytes
  | [b0, b1, b2, b3, b4, b5, b6, b7] => some ⟨b0, b1, b2, b3, b4, b5, b6, b7⟩
  | _ => none

/-! ### The seven header classes (R68 to R70) -/

/-- The header classes (R68). -/
inductive HeaderClass where
  | frmPlain
  | frmSens
  | rejRsvd
  | rejPad4
  | rejPad2
  | rejPadbits
  | rejMagic
deriving DecidableEq, Repr

/-- A bit pattern on the header word: `H` is in it when `(H & mask) == match` (R69). -/
structure Pattern where
  mask : HeaderWord
  value : HeaderWord
deriving DecidableEq, Repr

/-- `(H & mask) == match` (R69). -/
def Pattern.covers (p : Pattern) (w : HeaderWord) : Bool := (w &&& p.mask) == p.value

/-- The first-match table, in order (R69; the table's `order`, `mask` and `match`). -/
def firstMatchTable : List (HeaderClass × Pattern) :=
  [(.frmPlain, ⟨0xFFFF0000FFFFFFFF, 0xCC00000000000000⟩),
   (.frmSens, ⟨0xFFFF00000000FFFF, 0xCC40000000000000⟩),
   (.rejRsvd, ⟨0xFF80000000000000, 0xCC80000000000000⟩),
   (.rejPad4, ⟨0xFFFF000000000000, 0xCC00000000000000⟩),
   (.rejPad2, ⟨0xFFFF000000000000, 0xCC40000000000000⟩),
   (.rejPadbits, ⟨0xFF80000000000000, 0xCC00000000000000⟩),
   (.rejMagic, ⟨0x0000000000000000, 0x0000000000000000⟩)]

/-- The first row of a table that covers the word. The default is reached by no word: the last row of R69 covers all. -/
def firstMatch : List (HeaderClass × Pattern) → HeaderWord → HeaderClass
  | [], _ => .rejMagic
  | (c, p) :: rows, w => if p.covers w then c else firstMatch rows w

/-- The class of a header word (R69). -/
def classOf (w : HeaderWord) : HeaderClass := firstMatch firstMatchTable w

/-- The patterns "bits above `k` equal those of `base`, bit `k` is the complement, bits below `k` free", for
`k = n-1 .. 0` counted from bit `low`, beside the bits that `frame` fixes already (R70). -/
def firstDifference (frame : Pattern) (base : HeaderWord) (low : Nat) : Nat → List Pattern
  | 0 => []
  | n + 1 =>
    let bit := (1 : HeaderWord) <<< (low + n)
    (⟨frame.mask ||| bit, frame.value ||| (~~~base &&& bit)⟩ : Pattern) ::
      firstDifference ⟨frame.mask ||| bit, frame.value ||| (base &&& bit)⟩ base low n

/-- The disjoint patterns of a class (R70; the table's `exact_patterns`): 1, 1, 1, 32, 16, 6 and 8 of them. -/
def exactPatterns : HeaderClass → List Pattern
  | .frmPlain => [⟨0xFFFF0000FFFFFFFF, 0xCC00000000000000⟩]
  | .frmSens => [⟨0xFFFF00000000FFFF, 0xCC40000000000000⟩]
  | .rejRsvd => [⟨0xFF80000000000000, 0xCC80000000000000⟩]
  | .rejPad4 => firstDifference ⟨0xFFFF000000000000, 0xCC00000000000000⟩ 0 0 32
  | .rejPad2 => firstDifference ⟨0xFFFF000000000000, 0xCC40000000000000⟩ 0 0 16
  | .rejPadbits => firstDifference ⟨0xFF80000000000000, 0xCC00000000000000⟩ 0 48 6
  | .rejMagic => firstDifference ⟨0, 0⟩ 0xCC00000000000000 56 8

/-- The instruction a header word stands for: its class by R69, its fields by R61. Every word is one. -/
def decodeHeader (w : HeaderWord) : Instr :=
  match classOf w with
  | .frmPlain => .frmPlain (w.extractLsb' 32 16)
  | .frmSens => .frmSens (w.extractLsb' 32 16) (w.extractLsb' 16 16)
  | .rejRsvd => .rejRsvd (w.extractLsb' 48 7) (w.extractLsb' 32 16) (w.extractLsb' 0 32)
  | .rejPad4 => .rejPad4 (w.extractLsb' 32 16) (w.extractLsb' 0 32)
  | .rejPad2 => .rejPad2 (w.extractLsb' 32 16) (w.extractLsb' 16 16) (w.extractLsb' 0 16)
  | .rejPadbits => .rejPadbits (w.extractLsb' 54 1) (w.extractLsb' 48 6) (w.extractLsb' 32 16) (w.extractLsb' 0 32)
  | .rejMagic => .rejMagic (w.extractLsb' 56 8) (w.extractLsb' 48 8) (w.extractLsb' 32 16) (w.extractLsb' 0 32)

/-! ### The beat (R72) -/

/-- The instruction a 9-bit beat `{in_eos, in_data}` stands for (R72): `in_data` is ignored with `in_eos`. -/
def decodeBeat (w : BitVec 9) : Instr :=
  if w.getLsbD 8 then .eos else .byte (w.extractLsb' 0 8)

/-! ### Words on the wire -/

/-- An encoded instruction: a beat or a header (R60). A functional unit has none. -/
inductive WireWord where
  | b9 (w : BitVec 9)
  | h64 (w : HeaderWord)
deriving DecidableEq, Repr

/-- The instruction of a wire word. Total: the rows of R72 cover all 512 beats, those of R68 all headers. -/
def decode : WireWord → Instr
  | .b9 w => decodeBeat w
  | .h64 w => decodeHeader w

/-- Why bytes hold no header. -/
inductive DecodeError where
  /-- Fewer than the eight bytes of a header (R46, R67): `count` is how many there are. Safe: nothing is decoded. -/
  | truncatedHeader (count : Nat)
deriving DecidableEq, Repr

/-- The instruction of the header at the front of stored bytes, and the bytes after it. The first byte is header
byte 0 (R10, R43); fewer than eight bytes are rejected by name. -/
def decodeBytes : List Byte → Except DecodeError (Instr × List Byte)
  | b0 :: b1 :: b2 :: b3 :: b4 :: b5 :: b6 :: b7 :: rest =>
    .ok (decodeHeader (packHeader ⟨b0, b1, b2, b3, b4, b5, b6, b7⟩), rest)
  | short => .error (.truncatedHeader short.length)

/-! ### The encoder -/

/-- The header word of its four parts: magic byte, options byte, length, last four bytes (R61). -/
def headerWord (magic options : Byte) (length : Word16) (tail : Word32) : HeaderWord :=
  magic ++ options ++ length ++ tail

/-- `CC 00 LL LL 00 00 00 00` (R125). -/
def plainWord (length : Word16) : HeaderWord := headerWord Config.magic 0 length 0

/-- `CC 40 LL LL KK KK 00 00` (R125). -/
def sensWord (length claimed : Word16) : HeaderWord :=
  headerWord Config.magic Config.optSensitive length (claimed ++ (0 : Word16))

/-- `CC`, an options byte with bit 7 set, then anything (R164). -/
def rsvdWord (low : BitVec 7) (length : Word16) (tail : Word32) : HeaderWord :=
  headerWord Config.magic ((1 : BitVec 1) ++ low) length tail

/-- `CC 00 LL LL`, then four bytes (R166). -/
def pad4Word (length : Word16) (tail : Word32) : HeaderWord := headerWord Config.magic 0 length tail

/-- `CC 40 LL LL KK KK`, then two bytes (R167). -/
def pad2Word (length checksum pad : Word16) : HeaderWord :=
  headerWord Config.magic Config.optSensitive length (checksum ++ pad)

/-- `CC`, an options byte with bit 7 clear, then anything (R165). -/
def padbitsWord (sens : BitVec 1) (padding : BitVec 6) (length : Word16) (tail : Word32) : HeaderWord :=
  headerWord Config.magic ((0 : BitVec 1) ++ sens ++ padding) length tail

/-- Any eight bytes (R163). -/
def magicWord (magic options : Byte) (length : Word16) (tail : Word32) : HeaderWord :=
  headerWord magic options length tail

/-- `BYTE` = `0bbbbbbbb` (R72). -/
def byteWord (b : Byte) : BitVec 9 := (0 : BitVec 1) ++ b

/-- `EOS` = `1xxxxxxxx` (R72); the ignored bits are written 0. -/
def eosWord : BitVec 9 := 0x100

/-- The wire word of an instruction (R61, R72); none for a functional unit, which has no encoding. -/
def encode : Instr → Option WireWord
  | .frmPlain length => some (.h64 (plainWord length))
  | .frmSens length claimed => some (.h64 (sensWord length claimed))
  | .rejRsvd low length tail => some (.h64 (rsvdWord low length tail))
  | .rejPad4 length tail => some (.h64 (pad4Word length tail))
  | .rejPad2 length checksum pad => some (.h64 (pad2Word length checksum pad))
  | .rejPadbits sens padding length tail => some (.h64 (padbitsWord sens padding length tail))
  | .rejMagic magic options length tail => some (.h64 (magicWord magic options length tail))
  | .byte b => some (.b9 (byteWord b))
  | .eos => some (.b9 eosWord)
  | .csumSum _ => none
  | .csumFold _ => none
  | .csumCompute _ => none
  | .csumCover _ _ => none
  | .csumVerify _ _ _ => none
  | .csumAbsorb _ _ _ => none
  | .hdrParse _ => none
  | .hdrLen _ => none
  | .hdrSens _ => none
  | .hdrClaimed _ => none

/-! ### The opcode table's numbering -/

/-- The wire word of `nbits` bits, numbered as the opcode table numbers them: a header is one 64-bit word with header
byte 0 in bits 63:56, a beat is 9 bits, given in 9 to 16 bits with the rest 0 (log entry 12). No row has another size. -/
def tableWireWord (nbits w : Nat) : Option WireWord :=
  if 9 ≤ nbits ∧ nbits ≤ 16 then
    if w < 2 ^ 9 then some (.b9 (BitVec.ofNat 9 w)) else none
  else if nbits = 64 then
    if w < 2 ^ 64 then some (.h64 (BitVec.ofNat 64 w)) else none
  else none

/-- The instruction the decoder reads from the table's word: a header is laid out as its eight bytes, header byte 0
first, and given to `decodeBytes`; a beat goes to `decodeBeat`. -/
def decodeTableWord (nbits w : Nat) : Option Instr :=
  match tableWireWord nbits w with
  | some (.b9 beat) => some (decodeBeat beat)
  | some (.h64 word) =>
    match decodeBytes (unpackHeader word).toList with
    | .ok (instr, _) => some instr
    | .error _ => none
  | none => none

end Sys2Proof
end

