-- ==== Sys2Proof/Machine/State.lean ====
section
/-! DEFINITION. The state of one CTMP-FV instance as plain data (spec/10_state.md R20 to R35, spec/30_encoding.md R73 to
R75), the reasons a step can stop, and the reset state. -/

namespace Sys2Proof.Machine

/-- `ST`, the sequencer state (R25). -/
inductive SeqState where
  /-- `HDR`: collecting the 8 header bytes. -/
  | hdr
  /-- `BODY`: the header was accepted; consuming and summing `REM` body bytes. -/
  | body
  /-- `SKIP`: the header was rejected; consuming and ignoring `REM` body bytes. -/
  | skip
  /-- `CLOSED`: the stream has ended; no beat is accepted until reset. -/
  | closed
deriving DecidableEq, Repr

/-- A rejection reason (R13, R121). -/
inductive Reason where
  /-- 1: `h[0] != 0xCC`. -/
  | magic
  /-- 2: bit 7 of `h[1]` is 1. -/
  | rsvd
  /-- 3: any of bits 5:0 of `h[1]` is 1. -/
  | padbits
  /-- 4: not sensitive and any of `h[4]` to `h[7]` is not 0. -/
  | pad4
  /-- 5: sensitive and `h[6]` or `h[7]` is not 0. -/
  | pad2
deriving DecidableEq, Repr

/-- The result of `HDR.PARSE` (R13, R120). -/
inductive Parse where
  | ok (length : Word16) (sensitive : Bool)
  | err (reason : Reason)
deriving DecidableEq, Repr

/-- One output event: the six fields of the event port (R74, R75, R76). -/
structure Event where
  code : BitVec 3
  len : Word16
  sens : Bool
  claimed : Word16
  /-- The field `calc` of R74 (`calc` itself is a keyword of Lean). -/
  computed : Word16
  trunc : Bool
deriving DecidableEq, Repr

/-- All six fields 0: what the port shows while `ev_valid` is 0 (R30, R74). -/
def Event.zero : Event := ⟨0, 0, false, 0, 0, false⟩

/-- What the input pins show at one rising edge of `clk` (R73): `rst`, `in_valid`, `in_eos`, `in_data`. -/
structure Edge where
  rst : Bool
  valid : Bool
  eos : Bool
  data : Byte
deriving DecidableEq, Repr

/-- What a functional unit delivers: the result its rule names (R91 to R98, R120 to R124). -/
inductive UnitResult where
  /-- No unit has been used by itself since the model's start. -/
  | none
  /-- `CSUM.SUM`: a natural number. -/
  | sum (n : Nat)
  /-- `CSUM.FOLD`, `CSUM.COMPUTE`, `HDR.LEN`, `HDR.CLAIMED`: a 16-bit number. -/
  | word (w : Word16)
  /-- `CSUM.COVER`: a byte sequence. -/
  | bytes (l : List Byte)
  /-- `CSUM.VERIFY`, `HDR.SENS`: a Boolean. -/
  | flag (b : Bool)
  /-- `CSUM.ABSORB`: the new accumulator and phase. -/
  | absorbed (acc : Word32) (ph : BitVec 1)
  /-- `HDR.PARSE`. -/
  | parsed (p : Parse)
deriving DecidableEq, Repr

/-- How much one `step` of the model takes (log entry 2). -/
inductive Grain where
  /-- One rising edge: at most one beat (R73, R151). -/
  | beat
  /-- At a frame boundary with eight header bytes on offer, one whole frame (R161 to R167); otherwise one edge. -/
  | frame
deriving DecidableEq, Repr

/-- Why a step has no next state. -/
inductive Fault where
  /-- Raised by `BYTE`, `EOS` and a header class in `ST = CLOSED`: the beat is not accepted and `step` returns `None`
  (R151, R156, D15; U10: `stuck`). Safe: the spec gives no step there. -/
  | beatNotAccepted
deriving DecidableEq, Repr

/-- Why an instruction has no meaning. No arm of `exec` and no meaning raises one. -/
inductive Refusal where
  /-- Raised by an arm of `exec` whose instruction has no meaning yet; none is left. Safe. -/
  | notModelled (mnemonic : String)
deriving DecidableEq, Repr

/-- The state: the seven registers of R20, the event port of R74, and five fields of the model's own. -/
structure State where
  /-- `HDR[0..7]`, the header latch (R21). -/
  hdr : HeaderBytes
  /-- `ACC`, the checksum accumulator (R22). -/
  acc : Word32
  /-- `REM`, the body bytes not yet consumed (R23). -/
  rem : Word16
  /-- `IDX`, the header bytes already latched (R24). -/
  idx : BitVec 3
  /-- `ST` (R25). -/
  st : SeqState
  /-- `PH`, the byte phase (R27). -/
  ph : BitVec 1
  /-- `RSN`, the parse result (R28). -/
  rsn : BitVec 3
  /-- `ev_valid` (R30, R74). -/
  evValid : Bool
  /-- `ev_code`, `ev_len`, `ev_sens`, `ev_claimed`, `ev_calc`, `ev_trunc` (R30, R74). -/
  ev : Event
  /-- The model's own: what the pins show at the coming edges, first edge first (log entry 1). -/
  input : List Edge
  /-- The model's own: every event emitted, in order (R48, R168; log entry 3). -/
  events : List Event
  /-- The model's own: `POS`, the bytes accepted since reset (R26; log entry 3). -/
  pos : Nat
  /-- The model's own: what the functional unit used last delivered (log entry 4). -/
  result : UnitResult
  /-- The model's own: how much a step takes (log entry 2). -/
  grain : Grain
deriving DecidableEq, Repr

/-- The machine right after reset (R35, R231): every register 0, so `ST = HDR`, and no event on the port. The model's
own fields are empty (log entries 1 to 4). -/
def State.reset : State where
  hdr := HeaderBytes.zero
  acc := 0
  rem := 0
  idx := 0
  st := .hdr
  ph := 0
  rsn := 0
  evValid := false
  ev := Event.zero
  input := []
  events := []
  pos := 0
  result := .none
  grain := .beat

/-- The outcome of a meaning or of a step. -/
abbrev Result := Host.Outcome State Fault Refusal

end Sys2Proof.Machine
end

