-- ==== Sys2Proof/Machine/Operands.lean ====
section
/-! DEFINITION. The operand forms: a byte of the header latch by its number (spec/10_state.md R21), the views of the latch
(R31; 41_header_parse.md R122 to R124), the covered byte (40_checksum.md R98), `ST` as bits (R25), `in_ready`
(30_encoding.md R73), and the pin samples that carry a beat (R72, R73). -/

namespace Sys2Proof

/-- `HDR[i]` (R21). -/
def HeaderBytes.get (h : HeaderBytes) (i : BitVec 3) : Byte :=
  match i.toNat with
  | 0 => h.b0
  | 1 => h.b1
  | 2 => h.b2
  | 3 => h.b3
  | 4 => h.b4
  | 5 => h.b5
  | 6 => h.b6
  | _ => h.b7

/-- `HDR[i] <- b` (R21). -/
def HeaderBytes.set (h : HeaderBytes) (i : BitVec 3) (b : Byte) : HeaderBytes :=
  match i.toNat with
  | 0 => { h with b0 := b }
  | 1 => { h with b1 := b }
  | 2 => { h with b2 := b }
  | 3 => { h with b3 := b }
  | 4 => { h with b4 := b }
  | 5 => { h with b5 := b }
  | 6 => { h with b6 := b }
  | _ => { h with b7 := b }

end Sys2Proof

namespace Sys2Proof.Machine

/-- `HDR.LEN(h) = be16(h[2], h[3])` (R64, R122): the declared body length, of accepted and rejected headers alike (R126). -/
def hdrLen (h : HeaderBytes) : Word16 := be16 h.b2 h.b3

/-- `HDR.SENS(h) = ((h[1] & 0x40) != 0)` (R123). -/
def hdrSens (h : HeaderBytes) : Bool := (h.b1 &&& Config.optSensitive) != 0

/-- `HDR.CLAIMED(h) = be16(h[4], h[5])` (R65, R124): the bytes as received. -/
def hdrClaimed (h : HeaderBytes) : Word16 := be16 h.b4 h.b5

/-- The covered byte for the header byte `b` arriving at frame offset `i`: the placeholder at offsets 4 and 5, whatever
the header's class (R98, D33). -/
def coveredByte (i : BitVec 3) (b : Byte) : Byte := if i = 4 ∨ i = 5 then Config.csumPlaceholder else b

/-- The two bits of `ST` (R25, D10). -/
def SeqState.bits : SeqState → BitVec 2
  | .hdr => 0
  | .body => 1
  | .skip => 2
  | .closed => 3

/-- `in_ready = (ST != CLOSED)` (R73): an output, not a register. -/
def State.inReady (s : State) : Bool := s.st != .closed

/-- The 9-bit beat `{in_eos, in_data}` of a pin sample (R72). -/
def Edge.beat (e : Edge) : BitVec 9 := BitVec.ofBool e.eos ++ e.data

/-- The pin sample that offers a beat (R73). -/
def beatEdge (w : BitVec 9) : Edge := ⟨false, true, w.getLsbD 8, w.extractLsb' 0 8⟩

/-- The pin sample that offers `BYTE(b)` (R73). -/
def byteEdge (b : Byte) : Edge := ⟨false, true, false, b⟩

/-- The pin sample that offers `EOS` (R73). -/
def eosEdge : Edge := ⟨false, true, true, 0⟩

/-- The pin sample of an edge with reset (R230). -/
def rstEdge : Edge := ⟨true, false, false, 0⟩

/-- The pin sample of a cycle in which nothing is offered (R73). -/
def idleEdge : Edge := ⟨false, false, false, 0⟩

end Sys2Proof.Machine
end

