-- ==== Sys2Proof/Machine/Flags.lean ====
section
/-! DEFINITION. The flag computations: the byte phase `PH` (spec/10_state.md R27), the value `RSN` takes from a parse
(R28), the `trunc` flag of the close (42_sequencer.md R157), and the code of an accepted frame (R158). -/

namespace Sys2Proof.Machine

/-- `PH` after one more covered byte: it toggles (R27, R98: `ph' = 1 - ph`). -/
def nextPhase (ph : BitVec 1) : BitVec 1 := 1 - ph

/-- `PH` after `n` covered bytes from a frame boundary: `n mod 2` (R27, R99). -/
def phaseAfter (n : Nat) : BitVec 1 := BitVec.ofNat 1 n

/-- The number `k` of a reason: the document's own (1) to (5), which is also the event code and the value of `RSN`
(R28, R121). -/
def Reason.code : Reason → BitVec 3
  | .magic => 1
  | .rsvd => 2
  | .padbits => 3
  | .pad4 => 4
  | .pad2 => 5

/-- The number the sequencer keeps of a parse: 0 for `Ok`, the reason number for `Err` (R28, R153). -/
def parseCode : Parse → BitVec 3
  | .ok _ _ => 0
  | .err reason => reason.code

/-- `trunc`: the stream ends inside a frame (R157: `not (ST == HDR and IDX == 0)`). -/
def truncFlag (st : SeqState) (idx : BitVec 3) : Bool := !(st == .hdr && idx == 0)

/-- The code of an accepted frame: 6 when it is sensitive and its checksums differ, else 0 (R76, R158). -/
def acceptedCode (sens : Bool) (computed claimed : Word16) : BitVec 3 := if sens && computed != claimed then 6 else 0

end Sys2Proof.Machine
end

