-- ==== Sys2Proof/Machine/Ops.lean ====
section
/-! DEFINITION. The named operations on the state: the register writes of the sequencer's rules, the event port
(spec/30_encoding.md R74), the frame end (42_sequencer.md R160), the close (R157), reset (70_reset_and_hazards.md
R230), the entry of a framing error and the return from it (60_exceptions.md R212, R214), and taking bytes from the
input stream (20_memory.md R46). The block has no memory (R40). -/

namespace Sys2Proof.Machine

/-! ### Register writes -/

/-- `HDR[IDX] <- b`: the byte as received, never the placeholder (R21, R152). -/
def State.latch (s : State) (b : Byte) : State := { s with hdr := s.hdr.set s.idx b }

/-- `(ACC, PH) <- p` (R152, R154). -/
def State.setSum (s : State) (p : Word32 × BitVec 1) : State := { s with acc := p.1, ph := p.2 }

/-- `IDX <- i` (R24). -/
def State.setIdx (s : State) (i : BitVec 3) : State := { s with idx := i }

/-- `REM <- REM - 1` (R23). The sequencer never applies it at 0 in a reachable state (log entry 13). -/
def State.countDown (s : State) : State := { s with rem := s.rem - 1 }

/-- The model's stream offset after `n` more accepted bytes (R26). -/
def State.advance (s : State) (n : Nat) : State := { s with pos := s.pos + n }

/-- The input stream from here on: `es` is what is still to come. -/
def State.withInput (s : State) (es : List Edge) : State := { s with input := es }

/-- A functional unit delivers its result (R91 to R98, R120 to R124): it writes its result and nothing else. -/
def State.deliver (s : State) (r : UnitResult) : State := { s with result := r }

/-! ### The event port (R74) -/

/-- The step emits `e`: the port shows it from the next cycle on, and it is the latest of the events. -/
def State.emit (s : State) (e : Event) : State :=
  { s with evValid := true, ev := e, events := s.events ++ [e] }

/-- The step emits nothing: `ev_valid` is cleared by the edge and all six fields are 0. -/
def State.quiet (s : State) : State := { s with evValid := false, ev := Event.zero }

/-! ### Frame end, close, reset -/

/-- `finish()`: the frame-end clearing; `HDR` is left as it is (R160). -/
def State.finish (s : State) : State := { s with st := .hdr, idx := 0, rem := 0, acc := 0, ph := 0, rsn := 0 }

/-- The register writes of `EOS`: `CLOSED`, everything else cleared, `HDR` too (R157, R215). -/
def State.close (s : State) : State :=
  { s with st := .closed, idx := 0, rem := 0, acc := 0, ph := 0, rsn := 0, hdr := HeaderBytes.zero }

/-- The reset action at an edge with `rst = 1`: every register takes its reset value and the event port is cleared
(R230, R231). The stream offset starts again; the other fields of the model's own are not the block's (log entry 11). -/
def State.resetRegisters (s : State) : State :=
  { s with
    hdr := HeaderBytes.zero, acc := 0, rem := 0, idx := 0, st := .hdr, ph := 0, rsn := 0
    evValid := false, ev := Event.zero, pos := 0 }

/-! ### Header completion: the accepted case, and the framing error with its return -/

/-- A header was accepted and has a body: `RSN <- 0`, `REM <- L`, `ST <- BODY` (R153). -/
def State.enterBody (s : State) (len : Word16) : State := { s with rsn := 0, rem := len, st := .body }

/-- Taking a framing error of reason `k` with a body to skip: `RSN <- k`, `REM <- L`, `ST <- SKIP` (R153, R212). Nothing
is saved, there is no handler and no vector. -/
def State.takeReject (s : State) (k : BitVec 3) (len : Word16) : State := { s with rsn := k, rem := len, st := .skip }

/-- The return from a framing error, at the end of the skip: the event goes out and the block is at a frame boundary
(R214). -/
def State.returnFromReject (s : State) (e : Event) : State := (s.emit e).finish

/-- The end of an accepted frame: the same, whatever the checksums say (R154, R213). -/
def State.endFrame (s : State) (e : Event) : State := (s.emit e).finish

/-! ### Where the block stands -/

/-- A frame boundary, with the registers as they are there in every run (R33 items 1 and 2, R160). -/
def State.atBoundary (s : State) : Bool :=
  s.st == .hdr && s.idx == 0 && s.rem == 0 && s.acc == 0 && s.ph == 0 && s.rsn == 0

/-! ### Taking bytes from the input stream -/

/-- Up to `n` bytes from the front of the input, and what is left: cycles that offer nothing are passed over (R73); an
`EOS` or a reset edge is left where it is, and no byte behind it is taken (R46: a read that ends early). -/
def takeBytes : Nat → List Edge → List Byte × List Edge
  | 0, es => ([], es)
  | _ + 1, [] => ([], [])
  | n + 1, e :: es =>
    if e.rst then ([], e :: es)
    else if !e.valid then takeBytes (n + 1) es
    else if e.eos then ([], e :: es)
    else (e.data :: (takeBytes n es).1, (takeBytes n es).2)

end Sys2Proof.Machine
end

