-- ==== Sys2Proof/Machine/Checksum.lean ====
section
/-! DEFINITION. The checksum unit (spec/40_checksum.md): the pure functions of R91 to R98, and the meanings of the six
`CSUM` rows. A unit reads only its operands and writes only its result (log entry 4). -/

namespace Sys2Proof.Machine

/-! ### The functions -/

/-- `CSUM.SUM`: the exact sum of the big-endian 16-bit words; an odd last byte is a high byte (R91, R96). -/
def csumSum : List Byte → Nat
  | [] => 0
  | [hi] => (be16 hi 0).toNat
  | hi :: lo :: rest => (be16 hi lo).toNat + csumSum rest

/-- One pass of the fold: `(s & 0xFFFF) + (s >> 16)` (R92). -/
def foldPass (s : Nat) : Nat := (s &&& 0xFFFF) + (s >>> 16)

/-- The fold's loop, `while (s >> 16) != 0`, for at most `fuel` passes (R92). -/
def foldLoop : Nat → Nat → Nat
  | 0, s => s
  | fuel + 1, s => if s >>> 16 = 0 then s else foldLoop fuel (foldPass s)

/-- `CSUM.FOLD`: end-around carry folding to 16 bits (R92). Each pass makes `s` smaller while the loop runs, so `s` passes
are always enough. -/
def csumFold (s : Nat) : Word16 := BitVec.ofNat 16 (foldLoop s s)

/-- `CSUM.COMPUTE`: the complement of the folded sum (R90, R93). -/
def csumCompute (data : List Byte) : Word16 := ~~~csumFold (csumSum data)

/-- `CSUM.COVER`: the header with bytes 4 and 5 replaced by the placeholder, then the body (R94). -/
def csumCover (header : HeaderBytes) (body : List Byte) : List Byte :=
  header.toList.take 4 ++ [Config.csumPlaceholder, Config.csumPlaceholder] ++ header.toList.drop 6 ++ body

/-- `CSUM.VERIFY`: plain equality of 16-bit numbers (R97, D21). -/
def csumVerify (header : HeaderBytes) (body : List Byte) (claimed : Word16) : Bool :=
  csumCompute (csumCover header body) == claimed

/-- `CSUM.ABSORB`: one covered byte into the accumulator, as a high or a low byte by the phase (R98). -/
def csumAbsorb (acc : Word32) (ph : BitVec 1) (a : Byte) : Word32 × BitVec 1 :=
  (acc + (if ph = 0 then a.setWidth 32 <<< 8 else a.setWidth 32), nextPhase ph)

/-! ### The meanings -/

/-- `CSUM.SUM` (R91). -/
def execCsumSum (data : List Byte) (s : State) : Result := .next (s.deliver (.sum (csumSum data)))

/-- `CSUM.FOLD` (R92). -/
def execCsumFold (sum : Nat) (s : State) : Result := .next (s.deliver (.word (csumFold sum)))

/-- `CSUM.COMPUTE` (R93). -/
def execCsumCompute (data : List Byte) (s : State) : Result := .next (s.deliver (.word (csumCompute data)))

/-- `CSUM.COVER` (R94). -/
def execCsumCover (header : HeaderBytes) (body : List Byte) (s : State) : Result :=
  .next (s.deliver (.bytes (csumCover header body)))

/-- `CSUM.VERIFY` (R97). -/
def execCsumVerify (header : HeaderBytes) (body : List Byte) (claimed : Word16) (s : State) : Result :=
  .next (s.deliver (.flag (csumVerify header body claimed)))

/-- `CSUM.ABSORB` (R98). The registers `ACC` and `PH` are written by the step that uses the unit (R152, R154), not by
the unit (R20; log entry 4). -/
def execCsumAbsorb (acc : Word32) (ph : BitVec 1) (a : Byte) (s : State) : Result :=
  .next (s.deliver (.absorbed (csumAbsorb acc ph a).1 (csumAbsorb acc ph a).2))

end Sys2Proof.Machine
end

