-- ==== Sys2Proof/Machine/Header.lean ====
section
/-! DEFINITION. The header parser and field validator (spec/41_header_parse.md): the five ordered checks of R120, and
the meanings of the four `HDR` rows. The extractors of R122 to R124 are in Machine/Operands.lean. -/

namespace Sys2Proof.Machine

/-- `HDR.PARSE`: the five checks in the document's order; the first that fails is the one reported (R120, R121). -/
def hdrParse (h : HeaderBytes) : Parse :=
  if h.b0 ≠ Config.magic then .err .magic
  else if h.b1 &&& Config.optReserved ≠ 0 then .err .rsvd
  else if h.b1 &&& Config.optPadding ≠ 0 then .err .padbits
  else if h.b1 &&& Config.optSensitive = 0 then
    if h.b4 ≠ 0 ∨ h.b5 ≠ 0 ∨ h.b6 ≠ 0 ∨ h.b7 ≠ 0 then .err .pad4
    else .ok (hdrLen h) (hdrSens h)
  else if h.b6 ≠ 0 ∨ h.b7 ≠ 0 then .err .pad2
  else .ok (hdrLen h) (hdrSens h)

/-- `HDR.PARSE` (R120). `RSN` is written by the step that uses the unit (R153), not by the unit. -/
def execHdrParse (header : HeaderBytes) (s : State) : Result := .next (s.deliver (.parsed (hdrParse header)))

/-- `HDR.LEN` (R122). -/
def execHdrLen (header : HeaderBytes) (s : State) : Result := .next (s.deliver (.word (hdrLen header)))

/-- `HDR.SENS` (R123). -/
def execHdrSens (header : HeaderBytes) (s : State) : Result := .next (s.deliver (.flag (hdrSens header)))

/-- `HDR.CLAIMED` (R124). -/
def execHdrClaimed (header : HeaderBytes) (s : State) : Result := .next (s.deliver (.word (hdrClaimed header)))

end Sys2Proof.Machine
end

