-- ==== Sys2Proof/Machine/Sequencer.lean ====
section
/-! DEFINITION. The framing sequencer's two beats (spec/42_sequencer.md R150 to R160): what `BYTE` and `EOS` do in each
value of `ST`, and the event that ends a frame. -/

namespace Sys2Proof.Machine

/-- `frame_event(h, k, acc)`: the event that ends a frame with header `h`, parse code `k` and accumulator `acc` (R158). -/
def frameEvent (h : HeaderBytes) (k : BitVec 3) (acc : Word32) : Event :=
  if k ≠ 0 then
    { code := k, len := hdrLen h, sens := false, claimed := 0, computed := 0, trunc := false }
  else
    let c := ~~~csumFold acc.toNat
    { code := acceptedCode (hdrSens h) c (hdrClaimed h), len := hdrLen h, sens := hdrSens h
      claimed := hdrClaimed h, computed := c, trunc := false }

/-- The event of the close (R157). -/
def closedEvent (trunc : Bool) : Event :=
  { code := 7, len := 0, sens := false, claimed := 0, computed := 0, trunc := trunc }

/-- `BYTE` in `ST = HDR` with `IDX < 7`: latch a header byte and sum its covered byte (R152). -/
def latchHeaderByte (b : Byte) (s : State) : State :=
  ((((s.latch b).setSum (csumAbsorb s.acc s.ph (coveredByte s.idx b))).setIdx (s.idx + 1)).advance 1).quiet

/-- `BYTE` in `ST = HDR` with `IDX = 7`: header completion (R153). The frame ends here when its length is 0; otherwise the
header is accepted into `BODY` or the framing error is taken into `SKIP`. -/
def completeHeader (b : Byte) (s : State) : State :=
  let h := s.hdr.set 7 b
  let acc := s.acc + b.setWidth 32
  let k := parseCode (hdrParse h)
  let len := hdrLen h
  let t := ((s.latch b).setIdx 0).advance 1
  if len = 0 then t.endFrame (frameEvent h k acc)
  else
    let u := (t.setSum (acc, 0)).quiet
    if k = 0 then u.enterBody len else u.takeReject k len

/-- `BYTE` in `ST = BODY`: consume and sum a body byte of an accepted frame (R154). -/
def bodyByte (b : Byte) (s : State) : State :=
  let p := csumAbsorb s.acc s.ph b
  let t := s.advance 1
  if s.rem = 1 then t.endFrame (frameEvent s.hdr 0 p.1)
  else ((t.setSum p).countDown).quiet

/-- `BYTE` in `ST = SKIP`: consume and ignore a body byte of a rejected frame (R155). The byte is not an argument: its
value is not used. -/
def skipByte (s : State) : State :=
  let t := s.advance 1
  if s.rem = 1 then t.returnFromReject (frameEvent s.hdr s.rsn s.acc)
  else t.countDown.quiet

/-- One `BYTE` beat, by the sequencer state (R151). In `CLOSED` it is not accepted (R156). -/
def byteBeat (b : Byte) (s : State) : Result :=
  match s.st with
  | .hdr => .next (if s.idx.toNat < 7 then latchHeaderByte b s else completeHeader b s)
  | .body => .next (bodyByte b s)
  | .skip => .next (skipByte s)
  | .closed => .fault .beatNotAccepted

/-- `BYTE` (R151 to R156). -/
def execByte (b : Byte) (s : State) : Result := byteBeat b s

/-- `EOS` (R151, R156, R157): close the stream, with the `trunc` event. In `CLOSED` it is not accepted. -/
def execEos (s : State) : Result :=
  match s.st with
  | .closed => .fault .beatNotAccepted
  | _ => .next ((s.emit (closedEvent (truncFlag s.st s.idx))).close)

/-- Several bytes, each a `BYTE` beat, in order (R46). -/
def deliverBytes : List Byte → State → Result
  | [], s => .next s
  | b :: bs, s =>
    match byteBeat b s with
    | .next t => deliverBytes bs t
    | .fault r => .fault r
    | .refused r => .refused r

end Sys2Proof.Machine
end

