-- ==== Sys2Proof/Machine/Frames.lean ====
section
/-! DEFINITION. The seven header classes as instructions (spec/42_sequencer.md section 2, R161 to R167): what a whole
frame of each class does, from frame boundary to frame boundary. The eight header bytes have been taken from the input
stream by the fetch; the body operand is the next `length` bytes of the stream. -/

namespace Sys2Proof.Machine

/-- The end of a complete frame of header `h`: all its bytes are consumed, its one event goes out, and the block is at a
frame boundary with the header left in the latch (section 2 of 42_sequencer.md, R160). -/
def State.completeFrame (s : State) (h : HeaderBytes) (body : List Byte) (rest : List Edge) (e : Event) : State :=
  ((({ s with hdr := h }.withInput rest).advance (8 + body.length)).emit e).finish

/-- A frame whose body the stream has not yet delivered whole: the block waits in `BODY` or `SKIP` with the rest of the body
to come (R33 items 3 and 4, R99, R153 to R155); the coming beats end it (log entry 8). -/
def State.openFrame (s : State) (h : HeaderBytes) (k : BitVec 3) (body : List Byte) (rest : List Edge) : State :=
  let covered := if k = 0 then csumCover h body else csumCover h []
  let t := (({ s with hdr := h }.withInput rest).advance (8 + body.length)).setIdx 0
  let u := (t.setSum (BitVec.ofNat 32 (csumSum covered), phaseAfter covered.length)).quiet
  let len := hdrLen h - BitVec.ofNat 16 body.length
  if k = 0 then u.enterBody len else u.takeReject k len

/-- A header of parse code `k` run as one instruction. At a frame boundary it consumes its body and emits the one event of
its rule, `event body`; when the stream does not hold the whole body, the frame is left open. Anywhere else in a frame
its eight bytes are eight ordinary bytes of the stream (R51; log entry 7), and in `CLOSED` they are not accepted (R156). -/
def runFrame (h : HeaderBytes) (k : BitVec 3) (event : List Byte → Event) (s : State) : Result :=
  if s.atBoundary then
    let body := (takeBytes (hdrLen h).toNat s.input).1
    let rest := (takeBytes (hdrLen h).toNat s.input).2
    if body.length = (hdrLen h).toNat then .next (s.completeFrame h body rest (event body))
    else .next (s.openFrame h k body rest)
  else deliverBytes h.toList s

/-- A rejected frame of reason `k`: its body is consumed without looking at it, and the event carries the length only
(R163 to R167). -/
def runRejected (h : HeaderBytes) (k : Reason) (length : Word16) (s : State) : Result :=
  runFrame h k.code
    (fun _ => { code := k.code, len := length, sens := false, claimed := 0, computed := 0, trunc := false }) s

/-- `FRM.PLAIN`: accepted, not sensitive; no checksum is compared, `calc` is reported (R161). -/
def execFrmPlain (length : Word16) (s : State) : Result :=
  let h := unpackHeader (plainWord length)
  runFrame h 0
    (fun body =>
      { code := 0, len := length, sens := false, claimed := 0, computed := csumCompute (csumCover h body), trunc := false }) s

/-- `FRM.SENS`: accepted, sensitive; the checksum decides between code 0 and code 6 (R162). -/
def execFrmSens (length claimed : Word16) (s : State) : Result :=
  let h := unpackHeader (sensWord length claimed)
  runFrame h 0
    (fun body =>
      let c := csumCompute (csumCover h body)
      { code := if c = claimed then 0 else 6, len := length, sens := true, claimed := claimed, computed := c
        trunc := false }) s

/-- `REJ.RSVD` (R164). -/
def execRejRsvd (low : BitVec 7) (length : Word16) (tail : Word32) (s : State) : Result :=
  runRejected (unpackHeader (rsvdWord low length tail)) .rsvd length s

/-- `REJ.PAD4` (R166). -/
def execRejPad4 (length : Word16) (tail : Word32) (s : State) : Result :=
  runRejected (unpackHeader (pad4Word length tail)) .pad4 length s

/-- `REJ.PAD2` (R167). -/
def execRejPad2 (length checksum pad : Word16) (s : State) : Result :=
  runRejected (unpackHeader (pad2Word length checksum pad)) .pad2 length s

/-- `REJ.PADBITS` (R165). -/
def execRejPadbits (sens : BitVec 1) (padding : BitVec 6) (length : Word16) (tail : Word32) (s : State) : Result :=
  runRejected (unpackHeader (padbitsWord sens padding length tail)) .padbits length s

/-- `REJ.MAGIC` (R163). -/
def execRejMagic (magic options : Byte) (length : Word16) (tail : Word32) (s : State) : Result :=
  runRejected (unpackHeader (magicWord magic options length tail)) .magic length s

end Sys2Proof.Machine
end

