-- ==== Sys2Proof/Machine/Dispatch.lean ====
section
/-! DEFINITION. The dispatch: one arm per row of spec/opcode_table.json, one direct call of its meaning. -/

namespace Sys2Proof.Machine

def exec (i : Instr) (s : State) : Host.Outcome State Fault Refusal :=
  match i with
  | .frmPlain length => Sys2Proof.Machine.execFrmPlain length s
  | .frmSens length claimed => Sys2Proof.Machine.execFrmSens length claimed s
  | .rejRsvd low length tail => Sys2Proof.Machine.execRejRsvd low length tail s
  | .rejPad4 length tail => Sys2Proof.Machine.execRejPad4 length tail s
  | .rejPad2 length checksum pad => Sys2Proof.Machine.execRejPad2 length checksum pad s
  | .rejPadbits sens padding length tail => Sys2Proof.Machine.execRejPadbits sens padding length tail s
  | .rejMagic magic options length tail => Sys2Proof.Machine.execRejMagic magic options length tail s
  | .byte b => Sys2Proof.Machine.execByte b s
  | .eos => Sys2Proof.Machine.execEos s
  | .csumSum data => Sys2Proof.Machine.execCsumSum data s
  | .csumFold sum => Sys2Proof.Machine.execCsumFold sum s
  | .csumCompute data => Sys2Proof.Machine.execCsumCompute data s
  | .csumCover header body => Sys2Proof.Machine.execCsumCover header body s
  | .csumVerify header body claimed => Sys2Proof.Machine.execCsumVerify header body claimed s
  | .csumAbsorb acc ph a => Sys2Proof.Machine.execCsumAbsorb acc ph a s
  | .hdrParse header => Sys2Proof.Machine.execHdrParse header s
  | .hdrLen header => Sys2Proof.Machine.execHdrLen header s
  | .hdrSens header => Sys2Proof.Machine.execHdrSens header s
  | .hdrClaimed header => Sys2Proof.Machine.execHdrClaimed header s

end Sys2Proof.Machine
end

