-- ==== Sys2Proof/Machine/Fetch.lean ====
section
/-! DEFINITION. Fetching: what the next step has to run. In the beat grain it is the beat the pins offer at the next rising
edge (spec/30_encoding.md R73); in the frame grain, at a frame boundary with eight header bytes on offer, it is the
header class they decode to (42_sequencer.md section 2). The fetch takes what it reads from the input stream. -/

namespace Sys2Proof.Machine

/-- What an edge brings. -/
inductive Fetched where
  /-- No beat is accepted at this edge: the state after it is known (R73, R230). -/
  | noBeat (s : State)
  /-- An instruction is to be run, on the state with its bytes taken from the input. -/
  | run (i : Instr) (s : State)
deriving DecidableEq, Repr

/-- The next rising edge. Reset has priority over a beat (R211 item 5, R230). With nothing offered no register changes
(R73); past the end of the input nothing is offered (log entry 1). A beat offered in `CLOSED` is not accepted: while a
reset edge is still to come the edge passes and changes no register, and with none to come the beat is run, which has
no next state (R156, R251; log entry 5). -/
def fetchEdge (s : State) : Fetched :=
  match s.input with
  | [] => .noBeat s.quiet
  | e :: rest =>
    let t := s.withInput rest
    if e.rst then .noBeat t.resetRegisters
    else if !e.valid then .noBeat t.quiet
    else if !s.inReady && rest.any Edge.rst then .noBeat t.quiet
    else .run (decode (.b9 e.beat)) t

/-- The header on offer at a frame boundary, decoded, with its eight bytes taken; none when an `EOS`, a reset edge or the
end of the input comes before the eighth byte, or the block is not at a frame boundary. -/
def fetchHeader (s : State) : Option (Instr × State) :=
  if s.atBoundary then
    match decodeBytes (takeBytes Config.hdrLen s.input).1 with
    | .ok (i, _) => some (i, s.withInput (takeBytes Config.hdrLen s.input).2)
    | .error _ => none
  else none

/-- What the next step has to run, by the grain (log entry 2). -/
def fetch (s : State) : Fetched :=
  match s.grain with
  | .beat => fetchEdge s
  | .frame =>
    match fetchHeader s with
    | some (i, t) => .run i t
    | none => fetchEdge s

/-- The state with a wire word put before the input, and the grain that fetches it whole. -/
def State.offerWord (s : State) : WireWord → State
  | .b9 w => { s with input := beatEdge w :: s.input, grain := .beat }
  | .h64 w => { s with input := (unpackHeader w).toList.map byteEdge ++ s.input, grain := .frame }

end Sys2Proof.Machine
end

