-- ==== Sys2Proof/Machine/Step.lean ====
section
/-! DEFINITION. One step: the next rising edge, or the next whole frame in the frame grain (spec/42_sequencer.md R151). -/

namespace Sys2Proof.Machine

/-- One step. With no beat accepted there is nothing to run (R151: the block never moves on its own). -/
def step (s : State) : Host.Outcome State Fault Refusal :=
  match fetch s with
  | .noBeat t => .next t
  | .run i t => exec i t

/-- The state with an instruction's word, numbered as the opcode table numbers it, offered to the next step: a beat as
one pin sample, a header as its eight bytes in wire order. A size no row has changes nothing (log entry 12). -/
def State.withFetchWord (s : State) (nbits w : Nat) : State :=
  match tableWireWord nbits w with
  | some word => s.offerWord word
  | none => s

end Sys2Proof.Machine
end

