-- ==== Sys2Proof/Machine/Stream.lean ====
section
/-! DEFINITION. The behaviour over whole frames and whole streams: `verdict` (spec/42_sequencer.md R159) and `run` (R168),
and the notation for frames and streams with its pseudo-forms (30_encoding.md R77, R78). `step` does not use them; the
statements compare the step machine with them. -/

namespace Sys2Proof.Machine

/-- `verdict(h, body)`: the event of a whole frame as a function of its bytes (R159). -/
def verdict (h : HeaderBytes) (body : List Byte) : Event :=
  match hdrParse h with
  | .err k => { code := k.code, len := hdrLen h, sens := false, claimed := 0, computed := 0, trunc := false }
  | .ok length sensitive =>
    { code := if !sensitive || csumVerify h body (hdrClaimed h) then 0 else 6
      len := length, sens := sensitive, claimed := hdrClaimed h, computed := csumCompute (csumCover h body), trunc := false }

/-- `run` on at most `fuel` frames (R168). -/
def runFrames : Nat → List Byte → List Event
  | fuel + 1, b0 :: b1 :: b2 :: b3 :: b4 :: b5 :: b6 :: b7 :: rest =>
    let h : HeaderBytes := ⟨b0, b1, b2, b3, b4, b5, b6, b7⟩
    let len := (hdrLen h).toNat
    if rest.length < len then [closedEvent true]
    else verdict h (rest.take len) :: runFrames fuel (rest.drop len)
  | _, [] => [closedEvent false]
  | _, _ => [closedEvent true]

/-- `run(s)`: the events of a finite byte stream followed by one `EOS`, from a frame boundary (R168). Each frame consumes at
least eight bytes, so there are never more frames than bytes. -/
def runStream (bytes : List Byte) : List Event := runFrames bytes.length bytes

/-- A line of the notation (R77). -/
inductive Line where
  /-- `raw <8 header bytes> | <body bytes>`: any class; the body's length need not match. -/
  | raw (header : HeaderBytes) (body : List Byte)
  /-- `plain <body bytes>`. -/
  | plain (body : List Byte)
  /-- `sens! <4 hex digits> <body bytes>`. -/
  | sensWith (claimed : Word16) (body : List Byte)
  /-- `sens <body bytes>`. -/
  | sens (body : List Byte)
  /-- `eos`. -/
  | eos
deriving DecidableEq, Repr

/-- The header of `plain body` (R78; for bodies of at most 65535 bytes). -/
def plainHeaderFor (body : List Byte) : HeaderBytes := unpackHeader (plainWord (BitVec.ofNat 16 body.length))

/-- The header of `sens! claimed body` (R78). -/
def sensHeaderFor (claimed : Word16) (body : List Byte) : HeaderBytes :=
  unpackHeader (sensWord (BitVec.ofNat 16 body.length) claimed)

/-- The checksum `sens body` puts into the header: computed over the header with the placeholder in its place (R78). -/
def sensChecksum (body : List Byte) : Word16 := csumCompute (csumCover (sensHeaderFor 0xCCCC body) body)

/-- The bytes of a line, in stream order (R77, R78); `eos` has none. -/
def Line.bytes : Line → List Byte
  | .raw header body => header.toList ++ body
  | .plain body => (plainHeaderFor body).toList ++ body
  | .sensWith claimed body => (sensHeaderFor claimed body).toList ++ body
  | .sens body => (sensHeaderFor (sensChecksum body) body).toList ++ body
  | .eos => []

/-- The pin samples of a line: its bytes, each as a `BYTE` beat, in order, or the `EOS` beat (R77). -/
def Line.edges : Line → List Edge
  | .eos => [eosEdge]
  | line => line.bytes.map byteEdge

/-- The pin samples of a stream: those of its lines, concatenated (R77). -/
def streamEdges (lines : List Line) : List Edge := lines.flatMap Line.edges

end Sys2Proof.Machine
end

