-- ==== Sys2Proof/Safety.lean ====
section
/-! DEFINITION. The terms in which the statements speak of runs: the invariants of every reachable state
(spec/10_state.md R33, 30_encoding.md R74), and what the downstream can see of two runs (R34). -/

namespace Sys2Proof.Machine

/-- The invariants of R33, with what R212 and D37 add for `SKIP` and R74 for the event port. Item 7 is stated as: the
accumulator is the sum of the covered bytes of the latched header and of some body of the length consumed so far. -/
structure State.Inv (s : State) : Prop where
  /-- R33 item 1. -/
  hdr_registers : s.st = .hdr → s.rem = 0 ∧ s.rsn = 0 ∧ s.ph = phaseAfter s.idx.toNat
  /-- R33 item 2. -/
  boundary_registers : s.st = .hdr → s.idx = 0 → s.acc = 0 ∧ s.ph = 0
  /-- R33 item 3. -/
  body_registers : s.st = .body →
    s.idx = 0 ∧ s.rsn = 0 ∧ 1 ≤ s.rem.toNat ∧ s.rem.toNat ≤ (hdrLen s.hdr).toNat ∧
    s.ph = phaseAfter ((hdrLen s.hdr).toNat - s.rem.toNat) ∧
    hdrParse s.hdr = .ok (hdrLen s.hdr) (hdrSens s.hdr)
  /-- R33 item 4. -/
  skip_registers : s.st = .skip →
    s.idx = 0 ∧ 1 ≤ s.rem.toNat ∧ s.rem.toNat ≤ (hdrLen s.hdr).toNat ∧
    ∃ k : Reason, s.rsn = k.code ∧ hdrParse s.hdr = .err k
  /-- R33 item 5. -/
  closed_registers : s.st = .closed →
    s.idx = 0 ∧ s.rem = 0 ∧ s.acc = 0 ∧ s.ph = 0 ∧ s.rsn = 0 ∧ s.hdr = HeaderBytes.zero
  /-- R33 item 6. -/
  acc_bound : s.acc.toNat ≤ Config.accMax
  /-- R33 item 7 in `HDR`. -/
  hdr_sum : s.st = .hdr → s.acc.toNat = csumSum ((csumCover s.hdr []).take s.idx.toNat)
  /-- R33 item 7 in `BODY`. -/
  body_sum : s.st = .body → ∃ body : List Byte,
    body.length = (hdrLen s.hdr).toNat - s.rem.toNat ∧ s.acc.toNat = csumSum (csumCover s.hdr body)
  /-- R212, D37: during a skip `ACC` holds the rejected header's covered sum and `PH` is 0. -/
  skip_sum : s.st = .skip → s.acc.toNat = csumSum (csumCover s.hdr []) ∧ s.ph = 0
  /-- R74: when `ev_valid` is 0 all six fields are 0. -/
  port_quiet : s.evValid = false → s.ev = Event.zero
  /-- The port shows the latest of the emitted events. -/
  port_latest : s.evValid = true → s.events.getLast? = some s.ev

/-- Two outcomes look the same from outside the block: both stop for the same reason, or both go on with the same events
emitted, the same event port and the same `in_ready`. -/
def SameFromOutside : Result → Result → Prop
  | .next s, .next t =>
    s.events = t.events ∧ s.evValid = t.evValid ∧ s.ev = t.ev ∧ s.inReady = t.inReady ∧ s.input = t.input
  | .fault r, .fault q => r = q
  | .refused r, .refused q => r = q
  | _, _ => False

end Sys2Proof.Machine
end

