-- ==== Sys2Proof/Certificates/Slice0/Obligations.lean ====
section
/-! DEFINITION. The statements for the provers. Names say what each states; docstrings name the rules. A stream is given
as pin samples: `byteEdge b` offers `BYTE(b)`, `eosEdge` offers `EOS` (Machine/Operands.lean). -/

open Sys2Proof Sys2Proof.Machine

/-! ### The checksum unit -/

/-- `CSUM.SUM` (40_checksum.md section 2) delivers the exact sum of the big-endian 16-bit words, an odd last byte as a high
byte with a zero low byte, for every byte sequence, and changes nothing else. The second clause is its closed form, weight 256
at even and 1 at odd places, which the spec marks as derived from the pseudocode. -/
def Obligations.CsumSumDeliversTheSumOfWords : Prop :=
  ∀ (data : List Byte) (s : State),
    exec (.csumSum data) s =
      .next { s with
        result := .sum ((List.range ((data.length + 1) / 2)).map fun j =>
          (data.getD (2 * j) 0).toNat * 256 + (data.getD (2 * j + 1) 0).toNat).sum } ∧
    csumSum data = ((List.range data.length).map fun i => (data.getD i 0).toNat * (if i % 2 = 0 then 256 else 1)).sum

/-- `CSUM.FOLD` (40_checksum.md section 2) of a sum below 65536 is the sum; of a larger one it is the fold of one pass; and it
changes nothing but the unit's result. That a pass makes the sum smaller, that two passes are enough below 2^32, and the closed
form, the representative modulo 65535 in 1..65535 and 0 for 0, are inferences the spec marks as derived. -/
def Obligations.CsumFoldRunsPassesUntilNoCarry : Prop :=
  ∀ (n : Nat) (s : State),
    exec (.csumFold n) s = .next { s with result := .word (csumFold n) } ∧
    (n < 65536 → (csumFold n).toNat = n) ∧
    (65536 ≤ n → n % 65536 + n / 65536 < n ∧ csumFold n = csumFold (n % 65536 + n / 65536)) ∧
    (n < 2 ^ 32 → ((n % 65536 + n / 65536) % 65536 + (n % 65536 + n / 65536) / 65536) < 65536) ∧
    (csumFold n).toNat = (if n = 0 then 0 else (n - 1) % 65535 + 1)

/-- `CSUM.COMPUTE` (40_checksum.md section 2) delivers `0xFFFF - FOLD(SUM(data))` and changes nothing else; zero padding
changes nothing. That the result is `0x0000` exactly for a positive multiple of 65535 and `0xFFFF` exactly for zero bytes are
inferences the spec marks as derived. -/
def Obligations.CsumComputeDeliversComplementOfFold : Prop :=
  ∀ (data : List Byte) (s : State),
    exec (.csumCompute data) s = .next { s with result := .word (csumCompute data) } ∧
    (csumCompute data).toNat = 65535 - (csumFold (csumSum data)).toNat ∧
    (csumCompute data = 0 ↔ 0 < csumSum data ∧ csumSum data % 65535 = 0) ∧
    (csumCompute data = 0xFFFF ↔ ∀ b ∈ data, b = 0) ∧
    (data.length % 2 = 0 → csumCompute (data ++ [0]) = csumCompute data) ∧
    csumCompute (data ++ [0, 0]) = csumCompute data

/-- `CSUM.COVER` (40_checksum.md section 2) delivers the header with `CC CC` in place of bytes 4 and 5, then the body, and
changes nothing else. That each of the two bytes becomes `CC` is the spec's own reading (D19, log entry 9). -/
def Obligations.CsumCoverReplacesChecksumField : Prop :=
  ∀ (h : HeaderBytes) (body : List Byte) (s : State),
    exec (.csumCover h body) s =
      .next { s with result := .bytes ([h.b0, h.b1, h.b2, h.b3, 0xCC, 0xCC, h.b6, h.b7] ++ body) }

/-- `CSUM.VERIFY` (40_checksum.md section 2) delivers the equality of the computed and the claimed 16-bit numbers and changes
nothing else; it does not look at header bytes 4 and 5. That a claimed `0xFFFF` never verifies is an inference the spec marks
as derived. -/
def Obligations.CsumVerifyComparesSixteenBits : Prop :=
  ∀ (h : HeaderBytes) (body : List Byte) (claimed : Word16) (s : State),
    exec (.csumVerify h body claimed) s =
      .next { s with result := .flag (decide (csumCompute (csumCover h body) = claimed)) } ∧
    (∀ x y : Byte, csumVerify { h with b4 := x, b5 := y } body claimed = csumVerify h body claimed) ∧
    csumVerify h body 0xFFFF = false

/-- R98: `CSUM.ABSORB` delivers the accumulator with the byte added as a high byte (phase 0) or a low byte (phase 1), modulo
2^32, and the toggled phase. That the result goes to the unit's result field and the registers `ACC` and `PH` are written
by the steps that use the unit is the model's reading (log entry 4). -/
def Obligations.CsumAbsorbAddsWeightedByte : Prop :=
  ∀ (acc : Word32) (ph : BitVec 1) (a : Byte) (s : State),
    exec (.csumAbsorb acc ph a) s =
      .next { s with
        result := .absorbed (BitVec.ofNat 32 (acc.toNat + a.toNat * (if ph = 0 then 256 else 1)))
          (if ph = 0 then 1 else 0) }

/-- The byte-serial sum equals the word sum (R99, which the spec marks as derived): absorbing a sequence from `(0, 0)` gives
its sum and the parity of its length, as long as the sum fits 32 bits; so the complement of the folded accumulator is
`CSUM.COMPUTE`. -/
def Obligations.AbsorbingAllBytesGivesTheSum : Prop :=
  ∀ data : List Byte, csumSum data < 2 ^ 32 →
    let p := data.foldl (fun (q : Word32 × BitVec 1) a => csumAbsorb q.1 q.2 a) (0, 0)
    p.1.toNat = csumSum data ∧ p.2.toNat = data.length % 2 ∧ ~~~csumFold p.1.toNat = csumCompute data

/-- The range of the sum (R95, marked as derived): up to 131074 bytes it fits 32 bits, and no accepted frame's covered bytes
exceed `0x8002180C`. -/
def Obligations.SumNeverLeavesTheAccumulator : Prop :=
  (∀ data : List Byte, data.length ≤ 131074 → csumSum data < 2 ^ 32) ∧
  (∀ (h : HeaderBytes) (body : List Byte) (len : Word16) (sens : Bool),
    hdrParse h = .ok len sens → body.length ≤ len.toNat → csumSum (csumCover h body) ≤ 0x8002180C)

/-- Splitting at an even offset (R101 law 2, derived in the spec). -/
def Obligations.SumSplitsAtEvenOffset : Prop :=
  ∀ x y : List Byte, x.length % 2 = 0 → csumSum (x ++ y) = csumSum x + csumSum y

/-- Folding early or late gives the same (R101 law 4, derived in the spec; the reading R102 gives the document's first
testable property). -/
def Obligations.FoldEarlyOrLate : Prop :=
  ∀ a b : Nat, csumFold ((csumFold a).toNat + b) = csumFold (a + b)

/-- Permuting the 16-bit words of a sequence does not change its checksum (R101 law 3, derived in the spec). -/
def Obligations.WordOrderDoesNotMatter : Prop :=
  ∀ v w : List Word16, v.Perm w →
    csumCompute (v.flatMap fun x => [hi8 x, lo8 x]) = csumCompute (w.flatMap fun x => [hi8 x, lo8 x])

/-- A sequence of even length followed by its own checksum has checksum 0 (R101 law 7, derived in the spec). -/
def Obligations.ChecksumAppendedGivesZero : Prop :=
  ∀ x : List Byte, x.length % 2 = 0 →
    csumCompute (x ++ [hi8 (csumCompute x), lo8 (csumCompute x)]) = 0

/-- Every single-bit change outside header bytes 4 and 5 is detected when the claimed checksum is held (R103 item 1, derived
in the spec from the document's testable property). First clause: bit `k` of header byte `i`; second: bit `k` of body
byte `j`. -/
def Obligations.SingleBitFlipIsDetected : Prop :=
  ∀ (h : HeaderBytes) (body : List Byte) (k : Nat), k < 8 →
    (∀ i : BitVec 3, i ≠ 4 → i ≠ 5 →
      csumVerify (h.set i (h.get i ^^^ (1 <<< k))) body (csumCompute (csumCover h body)) = false) ∧
    (∀ j : Nat, j < body.length →
      csumVerify h (body.set j (body.getD j 0 ^^^ (1 <<< k))) (csumCompute (csumCover h body)) = false)

/-! ### The header unit -/

/-- R120: `HDR.PARSE` delivers the first failing of the five checks, in their order, or the length and sensitivity, and
changes nothing else. -/
def Obligations.HdrParseReportsFirstFailingCheck : Prop :=
  ∀ (h : HeaderBytes) (s : State),
    exec (.hdrParse h) s =
      .next { s with
        result := .parsed
          (if h.b0.toNat ≠ 0xCC then .err .magic
          else if 128 ≤ h.b1.toNat then .err .rsvd
          else if h.b1.toNat % 64 ≠ 0 then .err .padbits
          else if h.b1.toNat = 0 then
            if h.b4.toNat + h.b5.toNat + h.b6.toNat + h.b7.toNat = 0 then .ok (h.b2 ++ h.b3) false else .err .pad4
          else if h.b6.toNat + h.b7.toNat = 0 then .ok (h.b2 ++ h.b3) true
          else .err .pad2) }

/-- R122, R123, R124: the three extractors, defined for every header, accepted or not; nothing else changes. -/
def Obligations.HdrExtractorsDeliverTheFields : Prop :=
  ∀ (h : HeaderBytes) (s : State),
    exec (.hdrLen h) s = .next { s with result := .word (BitVec.ofNat 16 (h.b2.toNat * 256 + h.b3.toNat)) } ∧
    exec (.hdrSens h) s = .next { s with result := .flag (h.b1.getLsbD 6) } ∧
    exec (.hdrClaimed h) s = .next { s with result := .word (BitVec.ofNat 16 (h.b4.toNat * 256 + h.b5.toNat)) }

/-- The two accepted shapes (R125, derived in the spec): `HDR.PARSE` accepts exactly `CC 00 LL LL 00 00 00 00` and
`CC 40 LL LL KK KK 00 00`. -/
def Obligations.AcceptedHeadersHaveTwoShapes : Prop :=
  ∀ (h : HeaderBytes) (len : Word16) (sens : Bool),
    hdrParse h = .ok len sens ↔
      (sens = false ∧ h = ⟨0xCC, 0x00, hi8 len, lo8 len, 0, 0, 0, 0⟩) ∨
      (sens = true ∧ h = ⟨0xCC, 0x40, hi8 len, lo8 len, hi8 (hdrClaimed h), lo8 (hdrClaimed h), 0, 0⟩)

/-- The functional units are pure ("they read only their operands and write only their result", 40_checksum.md and
41_header_parse.md): every field but `result` is kept, and the result does not depend on the state. The result field is the
model's own (log entry 4). -/
def Obligations.FunctionalUnitsArePure : Prop :=
  ∀ i : Instr, i.format = .func →
    ∃ r : UnitResult, ∀ s : State, exec i s = .next { s with result := r }

/-! ### Decoding and encoding -/

/-- Decoding the encoding of a well-formed beat or header gives the instruction back, with every operand at every value;
and exactly the functional units have no encoding. -/
def Obligations.DecodeOfEncodeIsTheInstruction : Prop :=
  ∀ i : Instr,
    (encode i = none ↔ i.format = .func) ∧
    (i.wellFormed = true → ∀ w : WireWord, encode i = some w → decode w = i)

/-- Encoding the decoded word gives the word back: no bit of a header is dropped or invented, and of a beat only the ignored
bits of `EOS`. Every word decodes to a well-formed instruction. -/
def Obligations.EncodeOfDecodeIsTheWord : Prop :=
  (∀ w : HeaderWord, (decodeHeader w).wellFormed = true ∧ encode (decodeHeader w) = some (.h64 w)) ∧
  (∀ w : BitVec 9, (decodeBeat w).wellFormed = true ∧
    encode (decodeBeat w) = some (.b9 (if w.getLsbD 8 then 0x100 else w)))

/-- The class a header decodes to by the first-match table (R69) is the one the five checks give it (R68, R120), and its
fields are the header's. -/
def Obligations.DecodedClassIsTheParseResult : Prop :=
  ∀ h : HeaderBytes,
    match decodeHeader (packHeader h) with
    | .frmPlain len => hdrParse h = .ok len false ∧ hdrClaimed h = 0
    | .frmSens len claimed => hdrParse h = .ok len true ∧ hdrClaimed h = claimed
    | .rejRsvd _ len _ => hdrParse h = .err .rsvd ∧ hdrLen h = len
    | .rejPad4 len _ => hdrParse h = .err .pad4 ∧ hdrLen h = len
    | .rejPad2 len _ _ => hdrParse h = .err .pad2 ∧ hdrLen h = len
    | .rejPadbits _ _ len _ => hdrParse h = .err .padbits ∧ hdrLen h = len
    | .rejMagic _ _ len _ => hdrParse h = .err .magic ∧ hdrLen h = len
    | _ => False

/-- A header is in one of the exact patterns of a class (R70) exactly when the first-match table (R69) gives that class. -/
def Obligations.ExactPatternsDecideTheClass : Prop :=
  ∀ (w : HeaderWord) (c : HeaderClass), (exactPatterns c).any (fun p => p.covers w) = (classOf w == c)

/-- The 65 patterns of R70 are pairwise disjoint: any two differ at a bit that both fix. -/
def Obligations.ExactPatternsAreDisjoint : Prop :=
  let all := [HeaderClass.frmPlain, .frmSens, .rejRsvd, .rejPad4, .rejPad2, .rejPadbits, .rejMagic].flatMap exactPatterns
  all.length = 65 ∧ all.Pairwise fun p q => (p.value ^^^ q.value) &&& p.mask &&& q.mask ≠ 0

/-- Words written out from the encodings of R61, R68 and R72 decode to the instructions they stand for. -/
def Obligations.SampleWordsDecode : Prop :=
  decodeHeader 0xCC00000500000000 = .frmPlain 5 ∧
  decodeHeader 0xCC400005231B0000 = .frmSens 5 0x231B ∧
  decodeHeader 0xCC80000500000000 = .rejRsvd 0 5 0 ∧
  decodeHeader 0xCC00ABCDFFFFFFFF = .rejPad4 0xABCD 0xFFFFFFFF ∧
  decodeHeader 0xCC40000066F20100 = .rejPad2 0 0x66F2 0x0100 ∧
  decodeHeader 0xCC7F000700000000 = .rejPadbits 1 0x3F 7 0 ∧
  decodeHeader 0x4C00000500000000 = .rejMagic 0x4C 0 5 0 ∧
  decodeBeat 0x0CC = .byte 0xCC ∧
  decodeBeat 0x1CC = .eos

/-- R72: `0bbbbbbbb` is `BYTE(b)`, `1xxxxxxxx` is `EOS` whatever the low bits. -/
def Obligations.BeatPatternsDecode : Prop :=
  ∀ b : Byte, decodeBeat ((0 : BitVec 1) ++ b) = .byte b ∧ decodeBeat ((1 : BitVec 1) ++ b) = .eos

/-! ### The two beats -/

/-- R152: `BYTE` in `HDR` with `IDX < 7` latches the byte as received, sums its covered byte by the phase, counts the index,
and emits nothing. -/
def Obligations.ByteLatchesHeaderByte : Prop :=
  ∀ (s : State) (b : Byte), s.st = .hdr → s.idx.toNat < 7 →
    exec (.byte b) s =
      .next { s with
        hdr := s.hdr.set s.idx b
        acc := s.acc + BitVec.ofNat 32
          ((if s.idx = 4 ∨ s.idx = 5 then 0xCC else b.toNat) * (if s.ph = 0 then 256 else 1))
        ph := if s.ph = 0 then 1 else 0
        idx := s.idx + 1
        evValid := false, ev := Event.zero, pos := s.pos + 1 }

/-- R153: `BYTE` in `HDR` with `IDX = 7` completes the header: it ends a frame of length 0 with its event, enters `BODY` on
an accepted header, and takes the framing error into `SKIP` on a rejected one. -/
def Obligations.ByteCompletesHeader : Prop :=
  ∀ (s : State) (b : Byte), s.st = .hdr → s.idx = 7 →
    let h := { s.hdr with b7 := b }
    let acc := s.acc + BitVec.ofNat 32 b.toNat
    exec (.byte b) s =
      .next
        (if hdrLen h = 0 then
          { s with
            hdr := h, acc := 0, ph := 0, idx := 0, rem := 0, rsn := 0
            evValid := true, ev := frameEvent h (parseCode (hdrParse h)) acc
            events := s.events ++ [frameEvent h (parseCode (hdrParse h)) acc], pos := s.pos + 1 }
        else
          { s with
            hdr := h, acc := acc, ph := 0, idx := 0, rem := hdrLen h, rsn := parseCode (hdrParse h)
            st := match hdrParse h with
              | .ok _ _ => .body
              | .err _ => .skip
            evValid := false, ev := Event.zero, pos := s.pos + 1 })

/-- R154: `BYTE` in `BODY` sums the byte by the phase; the last body byte ends the frame with its event, any other counts
`REM` down. -/
def Obligations.BodyByteIsSummed : Prop :=
  ∀ (s : State) (b : Byte), s.st = .body →
    let acc := s.acc + BitVec.ofNat 32 (b.toNat * (if s.ph = 0 then 256 else 1))
    exec (.byte b) s =
      .next
        (if s.rem = 1 then
          { s with
            st := .hdr, acc := 0, ph := 0, idx := 0, rem := 0, rsn := 0
            evValid := true, ev := frameEvent s.hdr 0 acc, events := s.events ++ [frameEvent s.hdr 0 acc]
            pos := s.pos + 1 }
        else
          { s with
            acc := acc, ph := if s.ph = 0 then 1 else 0, rem := s.rem - 1
            evValid := false, ev := Event.zero, pos := s.pos + 1 })

/-- R155: `BYTE` in `SKIP` ignores the byte; the last skipped byte emits the rejection and ends the frame, any other counts
`REM` down and changes no other register. -/
def Obligations.SkipByteIsIgnored : Prop :=
  ∀ (s : State) (b : Byte), s.st = .skip →
    exec (.byte b) s =
      .next
        (if s.rem = 1 then
          { s with
            st := .hdr, acc := 0, ph := 0, idx := 0, rem := 0, rsn := 0
            evValid := true, ev := frameEvent s.hdr s.rsn s.acc, events := s.events ++ [frameEvent s.hdr s.rsn s.acc]
            pos := s.pos + 1 }
        else { s with rem := s.rem - 1, evValid := false, ev := Event.zero, pos := s.pos + 1 })

/-- R158: the event of a rejected frame carries its code and length only; that of an accepted frame carries length,
sensitivity, claimed and computed checksum, with code 6 exactly when it is sensitive and they differ. -/
def Obligations.FrameEventFields : Prop :=
  ∀ (h : HeaderBytes) (k : BitVec 3) (acc : Word32),
    (k ≠ 0 → frameEvent h k acc = ⟨k, hdrLen h, false, 0, 0, false⟩) ∧
    (k = 0 → ∃ c : Word16, c.toNat = 65535 - (csumFold acc.toNat).toNat ∧
      (hdrSens h = true → c ≠ hdrClaimed h → frameEvent h k acc = ⟨6, hdrLen h, true, hdrClaimed h, c, false⟩) ∧
      (hdrSens h = true → c = hdrClaimed h → frameEvent h k acc = ⟨0, hdrLen h, true, hdrClaimed h, c, false⟩) ∧
      (hdrSens h = false → frameEvent h k acc = ⟨0, hdrLen h, false, hdrClaimed h, c, false⟩))

/-- R157: `EOS` outside `CLOSED` closes the stream: every register cleared, `ST = CLOSED`, event code 7, `trunc` exactly when
the stream ended inside a frame. -/
def Obligations.EosClosesTheStream : Prop :=
  ∀ s : State, s.st ≠ .closed →
    let e : Event := ⟨7, 0, false, 0, 0, decide (¬(s.st = .hdr ∧ s.idx = 0))⟩
    exec .eos s =
      .next { s with
        st := .closed, idx := 0, rem := 0, acc := 0, ph := 0, rsn := 0, hdr := ⟨0, 0, 0, 0, 0, 0, 0, 0⟩
        evValid := true, ev := e, events := s.events ++ [e] }

/-- R156: in `CLOSED` no beat and no header is accepted: there is no step. -/
def Obligations.ClosedAcceptsNothing : Prop :=
  ∀ (i : Instr) (s : State), i.format ≠ .func → s.st = .closed → exec i s = .fault .beatNotAccepted

/-- A byte that emits an event leaves the block at a frame boundary with the event on the port (R153 to R155, R160; D8). -/
def Obligations.ByteEventMarksAFrameBoundary : Prop :=
  ∀ (s t : State) (b : Byte), exec (.byte b) s = .next t → t.events ≠ s.events →
    t.atBoundary = true ∧ t.evValid = true ∧ t.events = s.events ++ [t.ev]

/-- R214: a skip of `REM` bytes consumes exactly those bytes, whatever they are, and its last step emits the event with code
`RSN` and returns the block to a frame boundary. -/
def Obligations.SkipReturnsAfterRemBytes : Prop :=
  ∀ (s : State) (bytes : List Byte) (rest : List Edge),
    s.st = .skip → s.grain = .beat → s.rsn ≠ 0 → bytes ≠ [] → bytes.length = s.rem.toNat →
    let e : Event := ⟨s.rsn, hdrLen s.hdr, false, 0, 0, false⟩
    Sys2Proof.core.run bytes.length { s with input := bytes.map byteEdge ++ rest } =
      .next { s with
        st := .hdr, idx := 0, rem := 0, acc := 0, ph := 0, rsn := 0, input := rest, pos := s.pos + bytes.length
        evValid := true, ev := e, events := s.events ++ [e] }

/-! ### The header classes -/

/-- R161: at a frame boundary a complete plain frame is forwarded: code 0 with its length and the computed checksum; it
consumes its header and body and ends at a frame boundary. -/
def Obligations.FrmPlainForwards : Prop :=
  ∀ (s : State) (len : Word16) (body : List Byte) (rest : List Edge),
    s.atBoundary = true → body.length = len.toNat →
    let h : HeaderBytes := ⟨0xCC, 0x00, hi8 len, lo8 len, 0, 0, 0, 0⟩
    let e : Event := ⟨0, len, false, 0, csumCompute (csumCover h body), false⟩
    exec (.frmPlain len) { s with input := body.map byteEdge ++ rest } =
      .next { s with
        hdr := h, input := rest, pos := s.pos + (8 + body.length), evValid := true, ev := e, events := s.events ++ [e] }

/-- R162: at a frame boundary a complete sensitive frame gives code 0 when the computed checksum equals the claimed one and
code 6 when not; either way it ends at a frame boundary. -/
def Obligations.FrmSensVerifies : Prop :=
  ∀ (s : State) (len claimed : Word16) (body : List Byte) (rest : List Edge),
    s.atBoundary = true → body.length = len.toNat →
    let h : HeaderBytes := ⟨0xCC, 0x40, hi8 len, lo8 len, hi8 claimed, lo8 claimed, 0, 0⟩
    let c := csumCompute (csumCover h body)
    let e : Event := ⟨if c = claimed then 0 else 6, len, true, claimed, c, false⟩
    exec (.frmSens len claimed) { s with input := body.map byteEdge ++ rest } =
      .next { s with
        hdr := h, input := rest, pos := s.pos + (8 + body.length), evValid := true, ev := e, events := s.events ++ [e] }

/-- R163 to R167: at a frame boundary a complete frame of a rejected class consumes its declared length, whatever the bytes,
emits its reason with the length alone, and ends at a frame boundary. -/
def Obligations.RejectedFramesAreSkipped : Prop :=
  ∀ (s : State) (len : Word16) (body : List Byte) (rest : List Edge),
    s.atBoundary = true → body.length = len.toNat →
    let before : State := { s with input := body.map byteEdge ++ rest }
    let after := fun (k : BitVec 3) (h : HeaderBytes) =>
      { s with
        hdr := h, input := rest, pos := s.pos + (8 + body.length), evValid := true
        ev := ⟨k, len, false, 0, 0, false⟩, events := s.events ++ [⟨k, len, false, 0, 0, false⟩] }
    (∀ (magic options : Byte) (tail : Word32),
      exec (.rejMagic magic options len tail) before =
        .next (after 1 (unpackHeader (magic ++ options ++ len ++ tail)))) ∧
    (∀ (low : BitVec 7) (tail : Word32),
      exec (.rejRsvd low len tail) before =
        .next (after 2 (unpackHeader (0xCC#8 ++ (1#1 ++ low) ++ len ++ tail)))) ∧
    (∀ (sens : BitVec 1) (padding : BitVec 6) (tail : Word32),
      exec (.rejPadbits sens padding len tail) before =
        .next (after 3 (unpackHeader (0xCC#8 ++ (0#1 ++ sens ++ padding) ++ len ++ tail)))) ∧
    (∀ tail : Word32,
      exec (.rejPad4 len tail) before = .next (after 4 (unpackHeader (0xCC#8 ++ 0x00#8 ++ len ++ tail)))) ∧
    (∀ checksum pad : Word16,
      exec (.rejPad2 len checksum pad) before =
        .next (after 5 (unpackHeader (0xCC#8 ++ 0x40#8 ++ len ++ (checksum ++ pad)))))

/-- The verdict of R159: whatever its class, a complete frame at a frame boundary consumes `8 + LEN` bytes and emits exactly
`verdict(h, body)`; so the next header starts at stream offset `p + 8 + LEN` (R169). -/
def Obligations.CompleteFrameEmitsItsVerdict : Prop :=
  ∀ (s : State) (h : HeaderBytes) (body : List Byte) (rest : List Edge),
    s.atBoundary = true → body.length = (hdrLen h).toNat →
    exec (decodeHeader (packHeader h)) { s with input := body.map byteEdge ++ rest } =
      .next { s with
        hdr := h, input := rest, pos := s.pos + 8 + (hdrLen h).toNat
        evValid := true, ev := verdict h body, events := s.events ++ [verdict h body] }

/-- A header class run as one instruction is its beats run one by one: for a complete frame, and for a frame the stream cuts
short (nothing more, or an `EOS` or reset edge next). The one-step frame is the model's second grain (log entries 2 and 8). -/
def Obligations.FrameInstructionIsItsBeats : Prop :=
  ∀ (s : State) (h : HeaderBytes) (body : List Byte) (rest : List Edge),
    s.atBoundary = true → s.grain = .beat →
    (body.length = (hdrLen h).toNat ∨ body.length < (hdrLen h).toNat ∧ takeBytes 1 rest = ([], rest)) →
    exec (decodeHeader (packHeader h)) { s with input := body.map byteEdge ++ rest } =
      Sys2Proof.core.run (8 + body.length)
        { s with input := h.toList.map byteEdge ++ body.map byteEdge ++ rest }

/-- A header that is not at a frame boundary is eight ordinary bytes of the stream (R51): the model's meaning of a header
class there (log entry 7). -/
def Obligations.HeaderInsideAFrameIsEightBytes : Prop :=
  ∀ (s : State) (h : HeaderBytes), s.atBoundary = false → s.grain = .beat → s.st ≠ .closed →
    exec (decodeHeader (packHeader h)) s =
      Sys2Proof.core.run 8 { s with input := h.toList.map byteEdge ++ s.input }

/-- In the frame grain, a whole header with its body cut short by an `EOS` is reported by the close alone, with `trunc`
(42_sequencer.md section 1): no other event is emitted. That the header is one step is the model's choice (log entry 2), and
that it leaves the frame open for the `EOS` to close is the model's inference (log entry 8). -/
def Obligations.CutFrameIsReportedTruncated : Prop :=
  ∀ (s : State) (h : HeaderBytes) (body : List Byte) (rest : List Edge),
    s.atBoundary = true → s.grain = .frame → body.length < (hdrLen h).toNat →
    ∃ t : State,
      Sys2Proof.core.run 2
        { s with input := h.toList.map byteEdge ++ body.map byteEdge ++ eosEdge :: rest } = .next t ∧
      t.st = .closed ∧ t.events = s.events ++ [⟨7, 0, false, 0, 0, true⟩] ∧ t.input = rest

/-- A sensitive frame built as R78 says, with the checksum computed over the placeholder, is accepted with code 0 and equal
checksums; a plain frame is accepted with code 0. -/
def Obligations.CorrectlyBuiltFramesAreForwarded : Prop :=
  ∀ body : List Byte, body.length ≤ 65535 →
    (∃ e : Event, runStream (Line.sens body).bytes = [e, ⟨7, 0, false, 0, 0, false⟩] ∧
      e.code = 0 ∧ e.sens = true ∧ e.len.toNat = body.length ∧ e.claimed = e.computed) ∧
    (∃ e : Event, runStream (Line.plain body).bytes = [e, ⟨7, 0, false, 0, 0, false⟩] ∧
      e.code = 0 ∧ e.sens = false ∧ e.len.toNat = body.length ∧ e.claimed = 0)

/-! ### Steps -/

/-- A step runs the decoded beat: at an edge that accepts a beat, `step` is `exec` of the decoded instruction on the state
with that edge taken from the input. -/
def Obligations.StepRunsTheAcceptedBeat : Prop :=
  ∀ (s : State) (e : Edge) (rest : List Edge) (i : Instr),
    s.input = e :: rest → e.rst = false → e.valid = true → s.inReady = true →
    (s.grain = .beat ∨ s.atBoundary = false) → decode (.b9 e.beat) = i →
    step s = exec i { s with input := rest }

/-- A step runs the decoded header: in the frame grain, at a frame boundary, with eight bytes on offer, `step` is `exec` of
the class they decode to on the state with those bytes taken (the grain is the model's own, log entry 2). -/
def Obligations.StepRunsTheDecodedHeader : Prop :=
  ∀ (s : State) (h : HeaderBytes) (rest : List Edge) (i : Instr),
    s.grain = .frame → s.atBoundary = true → s.input = h.toList.map byteEdge ++ rest →
    decode (.h64 (packHeader h)) = i →
    step s = exec i { s with input := rest }

/-- R230: at an edge with `rst = 1`, from every state, over any beat and in either grain, every register takes its reset
value, no beat is accepted, no event is emitted, and the event port is cleared. -/
def Obligations.ResetFromEveryState : Prop :=
  ∀ (s : State) (e : Edge) (rest : List Edge), s.input = e :: rest → e.rst = true →
    ∃ t : State, step s = .next t ∧
      t.st = State.reset.st ∧ t.idx = State.reset.idx ∧ t.rem = State.reset.rem ∧ t.acc = State.reset.acc ∧
      t.ph = State.reset.ph ∧ t.rsn = State.reset.rsn ∧ t.hdr = State.reset.hdr ∧
      t.evValid = false ∧ t.ev = ⟨0, 0, false, 0, 0, false⟩ ∧ t.events = s.events ∧ t.input = rest

/-- R231: the reset state, which is a frame boundary. -/
def Obligations.ResetStateValues : Prop :=
  State.reset.st.bits = 0 ∧ State.reset.idx = 0 ∧ State.reset.rem = 0 ∧ State.reset.acc = 0 ∧ State.reset.ph = 0 ∧
  State.reset.rsn = 0 ∧ State.reset.hdr = ⟨0, 0, 0, 0, 0, 0, 0, 0⟩ ∧ State.reset.evValid = false ∧
  State.reset.ev = ⟨0, 0, false, 0, 0, false⟩ ∧ State.reset.inReady = true ∧ State.reset.atBoundary = true

/-- R73: a cycle in which nothing is offered (or, the model's choice in log entry 1, past the end of the input) changes no
register; the event port is cleared by the edge (R74). -/
def Obligations.QuietCycleKeepsTheRegisters : Prop :=
  ∀ s : State, s.grain = .beat ∨ s.atBoundary = false →
    (s.input = [] → step s = .next { s with evValid := false, ev := Event.zero }) ∧
    (∀ (e : Edge) (rest : List Edge), s.input = e :: rest → e.rst = false → e.valid = false →
      step s = .next { s with input := rest, evValid := false, ev := Event.zero })

/-- U11, R72: two `EOS` beats that differ only in `in_data` are the same beat. -/
def Obligations.EosIgnoresItsData : Prop :=
  ∀ (s : State) (d d' : Byte) (rest : List Edge),
    step { s with input := ⟨false, true, true, d⟩ :: rest } = step { s with input := ⟨false, true, true, d'⟩ :: rest }

/-- The invariants of R33 hold right after reset. -/
def Obligations.InvariantsHoldAtReset : Prop := State.reset.Inv

/-- The invariants of R33 (with R74's for the event port) are kept by every step, in either grain, from every state that has
them. -/
def Obligations.EveryStepKeepsTheInvariants : Prop :=
  ∀ s t : State, s.Inv → step s = .next t → t.Inv

/-- R48 item 4, R74: a step emits at most one event; the port shows it, and shows none when none is emitted. -/
def Obligations.AtMostOneEventPerStep : Prop :=
  ∀ s t : State, step s = .next t →
    (t.events = s.events ∧ t.evValid = false ∧ t.ev = Event.zero) ∨
    (t.evValid = true ∧ t.events = s.events ++ [t.ev])

/-- R208, R251: outside `CLOSED` every step completes, whatever the input. -/
def Obligations.OpenBlockAlwaysSteps : Prop :=
  ∀ s : State, s.st ≠ .closed → ∃ t : State, step s = .next t

/-- R156: no beat leads out of `CLOSED`: while no reset edge comes, every run from a closed state stays closed with every
register as it was and no further event; and a beat offered with no reset to come has no step. -/
def Obligations.ClosedUntilReset : Prop :=
  ∀ s : State, s.st = .closed → (∀ e ∈ s.input, e.rst = false) →
    (∀ (n : Nat) (t : State), Sys2Proof.core.run n s = .next t →
      t.st = .closed ∧ t.hdr = s.hdr ∧ t.acc = s.acc ∧ t.rem = s.rem ∧ t.idx = s.idx ∧ t.ph = s.ph ∧ t.rsn = s.rsn ∧
      t.events = s.events) ∧
    (∀ (e : Edge) (rest : List Edge), s.input = e :: rest → e.valid = true → step s = .fault .beatNotAccepted)

/-- A beat offered in `CLOSED` waits while a reset edge is still to come: no register changes and the edge passes (R73, R156;
that the model looks ahead for the reset is log entry 5). -/
def Obligations.ClosedWaitsForReset : Prop :=
  ∀ (s : State) (e : Edge) (rest : List Edge),
    s.st = .closed → s.input = e :: rest → e.rst = false → (∃ r ∈ rest, r.rst = true) →
    step s = .next { s with input := rest, evValid := false, ev := Event.zero }

/-! ### Whole streams -/

/-- The events of a stream (R168, derived in the spec): from a frame boundary, the beats of a byte sequence and one `EOS` emit
exactly `run` of it and close the block; without the `EOS` they emit all of `run` but its last event. -/
def Obligations.StreamEventsAreRun : Prop :=
  ∀ (s : State) (bytes : List Byte) (rest : List Edge), s.atBoundary = true → s.grain = .beat →
    (∃ t : State,
      Sys2Proof.core.run (bytes.length + 1) { s with input := bytes.map byteEdge ++ eosEdge :: rest } = .next t ∧
      t.events = s.events ++ runStream bytes ∧ t.st = .closed ∧ t.input = rest) ∧
    (∃ t : State,
      Sys2Proof.core.run bytes.length { s with input := bytes.map byteEdge ++ rest } = .next t ∧
      t.events = s.events ++ (runStream bytes).dropLast ∧ t.input = rest ∧ t.pos = s.pos + bytes.length)

/-- The frame grain emits the same events: some number of its steps takes the same stream to the close with exactly `run` of it
(the grain is the model's own, log entry 2). -/
def Obligations.FrameGrainEmitsTheSameEvents : Prop :=
  ∀ (s : State) (bytes : List Byte), s.atBoundary = true → s.grain = .frame →
    ∃ (n : Nat) (t : State),
      Sys2Proof.core.run n { s with input := bytes.map byteEdge ++ [eosEdge] } = .next t ∧
      t.events = s.events ++ runStream bytes ∧ t.st = .closed ∧ t.input = []

/-- Stale header bytes cannot be observed (R34, derived in the spec): two states at a frame boundary that differ only in
`HDR` look the same from outside on every continuation. -/
def Obligations.StaleHeaderIsUnobservable : Prop :=
  ∀ (s : State) (h : HeaderBytes) (n : Nat), s.atBoundary = true →
    SameFromOutside (Sys2Proof.core.run n s) (Sys2Proof.core.run n { s with hdr := h })
end

