-- ==== Sys2Proof/Laws/State.lean ====
section
/-! SUPPORT. What each named operation on the state does to each field: one lemma per field per operation, true by
unfolding, so that no later proof unfolds a record update. -/

namespace Sys2Proof.Machine

/-! ### `latch` -/

@[simp] theorem State.latch_hdr (s : State) (b : Byte) : (s.latch b).hdr = s.hdr.set s.idx b := rfl
@[simp] theorem State.latch_acc (s : State) (b : Byte) : (s.latch b).acc = s.acc := rfl
@[simp] theorem State.latch_rem (s : State) (b : Byte) : (s.latch b).rem = s.rem := rfl
@[simp] theorem State.latch_idx (s : State) (b : Byte) : (s.latch b).idx = s.idx := rfl
@[simp] theorem State.latch_st (s : State) (b : Byte) : (s.latch b).st = s.st := rfl
@[simp] theorem State.latch_ph (s : State) (b : Byte) : (s.latch b).ph = s.ph := rfl
@[simp] theorem State.latch_rsn (s : State) (b : Byte) : (s.latch b).rsn = s.rsn := rfl
@[simp] theorem State.latch_evValid (s : State) (b : Byte) : (s.latch b).evValid = s.evValid := rfl
@[simp] theorem State.latch_ev (s : State) (b : Byte) : (s.latch b).ev = s.ev := rfl
@[simp] theorem State.latch_input (s : State) (b : Byte) : (s.latch b).input = s.input := rfl
@[simp] theorem State.latch_events (s : State) (b : Byte) : (s.latch b).events = s.events := rfl
@[simp] theorem State.latch_pos (s : State) (b : Byte) : (s.latch b).pos = s.pos := rfl
@[simp] theorem State.latch_result (s : State) (b : Byte) : (s.latch b).result = s.result := rfl
@[simp] theorem State.latch_grain (s : State) (b : Byte) : (s.latch b).grain = s.grain := rfl

/-! ### `setSum` -/

@[simp] theorem State.setSum_hdr (s : State) (p : Word32 × BitVec 1) : (s.setSum p).hdr = s.hdr := rfl
@[simp] theorem State.setSum_acc (s : State) (p : Word32 × BitVec 1) : (s.setSum p).acc = p.1 := rfl
@[simp] theorem State.setSum_rem (s : State) (p : Word32 × BitVec 1) : (s.setSum p).rem = s.rem := rfl
@[simp] theorem State.setSum_idx (s : State) (p : Word32 × BitVec 1) : (s.setSum p).idx = s.idx := rfl
@[simp] theorem State.setSum_st (s : State) (p : Word32 × BitVec 1) : (s.setSum p).st = s.st := rfl
@[simp] theorem State.setSum_ph (s : State) (p : Word32 × BitVec 1) : (s.setSum p).ph = p.2 := rfl
@[simp] theorem State.setSum_rsn (s : State) (p : Word32 × BitVec 1) : (s.setSum p).rsn = s.rsn := rfl
@[simp] theorem State.setSum_evValid (s : State) (p : Word32 × BitVec 1) : (s.setSum p).evValid = s.evValid := rfl
@[simp] theorem State.setSum_ev (s : State) (p : Word32 × BitVec 1) : (s.setSum p).ev = s.ev := rfl
@[simp] theorem State.setSum_input (s : State) (p : Word32 × BitVec 1) : (s.setSum p).input = s.input := rfl
@[simp] theorem State.setSum_events (s : State) (p : Word32 × BitVec 1) : (s.setSum p).events = s.events := rfl
@[simp] theorem State.setSum_pos (s : State) (p : Word32 × BitVec 1) : (s.setSum p).pos = s.pos := rfl
@[simp] theorem State.setSum_result (s : State) (p : Word32 × BitVec 1) : (s.setSum p).result = s.result := rfl
@[simp] theorem State.setSum_grain (s : State) (p : Word32 × BitVec 1) : (s.setSum p).grain = s.grain := rfl

/-! ### `setIdx` -/

@[simp] theorem State.setIdx_hdr (s : State) (i : BitVec 3) : (s.setIdx i).hdr = s.hdr := rfl
@[simp] theorem State.setIdx_acc (s : State) (i : BitVec 3) : (s.setIdx i).acc = s.acc := rfl
@[simp] theorem State.setIdx_rem (s : State) (i : BitVec 3) : (s.setIdx i).rem = s.rem := rfl
@[simp] theorem State.setIdx_idx (s : State) (i : BitVec 3) : (s.setIdx i).idx = i := rfl
@[simp] theorem State.setIdx_st (s : State) (i : BitVec 3) : (s.setIdx i).st = s.st := rfl
@[simp] theorem State.setIdx_ph (s : State) (i : BitVec 3) : (s.setIdx i).ph = s.ph := rfl
@[simp] theorem State.setIdx_rsn (s : State) (i : BitVec 3) : (s.setIdx i).rsn = s.rsn := rfl
@[simp] theorem State.setIdx_evValid (s : State) (i : BitVec 3) : (s.setIdx i).evValid = s.evValid := rfl
@[simp] theorem State.setIdx_ev (s : State) (i : BitVec 3) : (s.setIdx i).ev = s.ev := rfl
@[simp] theorem State.setIdx_input (s : State) (i : BitVec 3) : (s.setIdx i).input = s.input := rfl
@[simp] theorem State.setIdx_events (s : State) (i : BitVec 3) : (s.setIdx i).events = s.events := rfl
@[simp] theorem State.setIdx_pos (s : State) (i : BitVec 3) : (s.setIdx i).pos = s.pos := rfl
@[simp] theorem State.setIdx_result (s : State) (i : BitVec 3) : (s.setIdx i).result = s.result := rfl
@[simp] theorem State.setIdx_grain (s : State) (i : BitVec 3) : (s.setIdx i).grain = s.grain := rfl

/-! ### `countDown` -/

@[simp] theorem State.countDown_hdr (s : State) : s.countDown.hdr = s.hdr := rfl
@[simp] theorem State.countDown_acc (s : State) : s.countDown.acc = s.acc := rfl
@[simp] theorem State.countDown_rem (s : State) : s.countDown.rem = s.rem - 1 := rfl
@[simp] theorem State.countDown_idx (s : State) : s.countDown.idx = s.idx := rfl
@[simp] theorem State.countDown_st (s : State) : s.countDown.st = s.st := rfl
@[simp] theorem State.countDown_ph (s : State) : s.countDown.ph = s.ph := rfl
@[simp] theorem State.countDown_rsn (s : State) : s.countDown.rsn = s.rsn := rfl
@[simp] theorem State.countDown_evValid (s : State) : s.countDown.evValid = s.evValid := rfl
@[simp] theorem State.countDown_ev (s : State) : s.countDown.ev = s.ev := rfl
@[simp] theorem State.countDown_input (s : State) : s.countDown.input = s.input := rfl
@[simp] theorem State.countDown_events (s : State) : s.countDown.events = s.events := rfl
@[simp] theorem State.countDown_pos (s : State) : s.countDown.pos = s.pos := rfl
@[simp] theorem State.countDown_result (s : State) : s.countDown.result = s.result := rfl
@[simp] theorem State.countDown_grain (s : State) : s.countDown.grain = s.grain := rfl

/-! ### `advance` -/

@[simp] theorem State.advance_hdr (s : State) (n : Nat) : (s.advance n).hdr = s.hdr := rfl
@[simp] theorem State.advance_acc (s : State) (n : Nat) : (s.advance n).acc = s.acc := rfl
@[simp] theorem State.advance_rem (s : State) (n : Nat) : (s.advance n).rem = s.rem := rfl
@[simp] theorem State.advance_idx (s : State) (n : Nat) : (s.advance n).idx = s.idx := rfl
@[simp] theorem State.advance_st (s : State) (n : Nat) : (s.advance n).st = s.st := rfl
@[simp] theorem State.advance_ph (s : State) (n : Nat) : (s.advance n).ph = s.ph := rfl
@[simp] theorem State.advance_rsn (s : State) (n : Nat) : (s.advance n).rsn = s.rsn := rfl
@[simp] theorem State.advance_evValid (s : State) (n : Nat) : (s.advance n).evValid = s.evValid := rfl
@[simp] theorem State.advance_ev (s : State) (n : Nat) : (s.advance n).ev = s.ev := rfl
@[simp] theorem State.advance_input (s : State) (n : Nat) : (s.advance n).input = s.input := rfl
@[simp] theorem State.advance_events (s : State) (n : Nat) : (s.advance n).events = s.events := rfl
@[simp] theorem State.advance_pos (s : State) (n : Nat) : (s.advance n).pos = s.pos + n := rfl
@[simp] theorem State.advance_result (s : State) (n : Nat) : (s.advance n).result = s.result := rfl
@[simp] theorem State.advance_grain (s : State) (n : Nat) : (s.advance n).grain = s.grain := rfl

/-! ### `withInput` -/

@[simp] theorem State.withInput_hdr (s : State) (es : List Edge) : (s.withInput es).hdr = s.hdr := rfl
@[simp] theorem State.withInput_acc (s : State) (es : List Edge) : (s.withInput es).acc = s.acc := rfl
@[simp] theorem State.withInput_rem (s : State) (es : List Edge) : (s.withInput es).rem = s.rem := rfl
@[simp] theorem State.withInput_idx (s : State) (es : List Edge) : (s.withInput es).idx = s.idx := rfl
@[simp] theorem State.withInput_st (s : State) (es : List Edge) : (s.withInput es).st = s.st := rfl
@[simp] theorem State.withInput_ph (s : State) (es : List Edge) : (s.withInput es).ph = s.ph := rfl
@[simp] theorem State.withInput_rsn (s : State) (es : List Edge) : (s.withInput es).rsn = s.rsn := rfl
@[simp] theorem State.withInput_evValid (s : State) (es : List Edge) : (s.withInput es).evValid = s.evValid := rfl
@[simp] theorem State.withInput_ev (s : State) (es : List Edge) : (s.withInput es).ev = s.ev := rfl
@[simp] theorem State.withInput_input (s : State) (es : List Edge) : (s.withInput es).input = es := rfl
@[simp] theorem State.withInput_events (s : State) (es : List Edge) : (s.withInput es).events = s.events := rfl
@[simp] theorem State.withInput_pos (s : State) (es : List Edge) : (s.withInput es).pos = s.pos := rfl
@[simp] theorem State.withInput_result (s : State) (es : List Edge) : (s.withInput es).result = s.result := rfl
@[simp] theorem State.withInput_grain (s : State) (es : List Edge) : (s.withInput es).grain = s.grain := rfl

/-! ### `deliver` -/

@[simp] theorem State.deliver_hdr (s : State) (r : UnitResult) : (s.deliver r).hdr = s.hdr := rfl
@[simp] theorem State.deliver_acc (s : State) (r : UnitResult) : (s.deliver r).acc = s.acc := rfl
@[simp] theorem State.deliver_rem (s : State) (r : UnitResult) : (s.deliver r).rem = s.rem := rfl
@[simp] theorem State.deliver_idx (s : State) (r : UnitResult) : (s.deliver r).idx = s.idx := rfl
@[simp] theorem State.deliver_st (s : State) (r : UnitResult) : (s.deliver r).st = s.st := rfl
@[simp] theorem State.deliver_ph (s : State) (r : UnitResult) : (s.deliver r).ph = s.ph := rfl
@[simp] theorem State.deliver_rsn (s : State) (r : UnitResult) : (s.deliver r).rsn = s.rsn := rfl
@[simp] theorem State.deliver_evValid (s : State) (r : UnitResult) : (s.deliver r).evValid = s.evValid := rfl
@[simp] theorem State.deliver_ev (s : State) (r : UnitResult) : (s.deliver r).ev = s.ev := rfl
@[simp] theorem State.deliver_input (s : State) (r : UnitResult) : (s.deliver r).input = s.input := rfl
@[simp] theorem State.deliver_events (s : State) (r : UnitResult) : (s.deliver r).events = s.events := rfl
@[simp] theorem State.deliver_pos (s : State) (r : UnitResult) : (s.deliver r).pos = s.pos := rfl
@[simp] theorem State.deliver_result (s : State) (r : UnitResult) : (s.deliver r).result = r := rfl
@[simp] theorem State.deliver_grain (s : State) (r : UnitResult) : (s.deliver r).grain = s.grain := rfl

/-! ### `emit` -/

@[simp] theorem State.emit_hdr (s : State) (e : Event) : (s.emit e).hdr = s.hdr := rfl
@[simp] theorem State.emit_acc (s : State) (e : Event) : (s.emit e).acc = s.acc := rfl
@[simp] theorem State.emit_rem (s : State) (e : Event) : (s.emit e).rem = s.rem := rfl
@[simp] theorem State.emit_idx (s : State) (e : Event) : (s.emit e).idx = s.idx := rfl
@[simp] theorem State.emit_st (s : State) (e : Event) : (s.emit e).st = s.st := rfl
@[simp] theorem State.emit_ph (s : State) (e : Event) : (s.emit e).ph = s.ph := rfl
@[simp] theorem State.emit_rsn (s : State) (e : Event) : (s.emit e).rsn = s.rsn := rfl
@[simp] theorem State.emit_evValid (s : State) (e : Event) : (s.emit e).evValid = true := rfl
@[simp] theorem State.emit_ev (s : State) (e : Event) : (s.emit e).ev = e := rfl
@[simp] theorem State.emit_input (s : State) (e : Event) : (s.emit e).input = s.input := rfl
@[simp] theorem State.emit_events (s : State) (e : Event) : (s.emit e).events = s.events ++ [e] := rfl
@[simp] theorem State.emit_pos (s : State) (e : Event) : (s.emit e).pos = s.pos := rfl
@[simp] theorem State.emit_result (s : State) (e : Event) : (s.emit e).result = s.result := rfl
@[simp] theorem State.emit_grain (s : State) (e : Event) : (s.emit e).grain = s.grain := rfl

/-! ### `quiet` -/

@[simp] theorem State.quiet_hdr (s : State) : s.quiet.hdr = s.hdr := rfl
@[simp] theorem State.quiet_acc (s : State) : s.quiet.acc = s.acc := rfl
@[simp] theorem State.quiet_rem (s : State) : s.quiet.rem = s.rem := rfl
@[simp] theorem State.quiet_idx (s : State) : s.quiet.idx = s.idx := rfl
@[simp] theorem State.quiet_st (s : State) : s.quiet.st = s.st := rfl
@[simp] theorem State.quiet_ph (s : State) : s.quiet.ph = s.ph := rfl
@[simp] theorem State.quiet_rsn (s : State) : s.quiet.rsn = s.rsn := rfl
@[simp] theorem State.quiet_evValid (s : State) : s.quiet.evValid = false := rfl
@[simp] theorem State.quiet_ev (s : State) : s.quiet.ev = Event.zero := rfl
@[simp] theorem State.quiet_input (s : State) : s.quiet.input = s.input := rfl
@[simp] theorem State.quiet_events (s : State) : s.quiet.events = s.events := rfl
@[simp] theorem State.quiet_pos (s : State) : s.quiet.pos = s.pos := rfl
@[simp] theorem State.quiet_result (s : State) : s.quiet.result = s.result := rfl
@[simp] theorem State.quiet_grain (s : State) : s.quiet.grain = s.grain := rfl

/-! ### `finish` -/

@[simp] theorem State.finish_hdr (s : State) : s.finish.hdr = s.hdr := rfl
@[simp] theorem State.finish_acc (s : State) : s.finish.acc = 0 := rfl
@[simp] theorem State.finish_rem (s : State) : s.finish.rem = 0 := rfl
@[simp] theorem State.finish_idx (s : State) : s.finish.idx = 0 := rfl
@[simp] theorem State.finish_st (s : State) : s.finish.st = .hdr := rfl
@[simp] theorem State.finish_ph (s : State) : s.finish.ph = 0 := rfl
@[simp] theorem State.finish_rsn (s : State) : s.finish.rsn = 0 := rfl
@[simp] theorem State.finish_evValid (s : State) : s.finish.evValid = s.evValid := rfl
@[simp] theorem State.finish_ev (s : State) : s.finish.ev = s.ev := rfl
@[simp] theorem State.finish_input (s : State) : s.finish.input = s.input := rfl
@[simp] theorem State.finish_events (s : State) : s.finish.events = s.events := rfl
@[simp] theorem State.finish_pos (s : State) : s.finish.pos = s.pos := rfl
@[simp] theorem State.finish_result (s : State) : s.finish.result = s.result := rfl
@[simp] theorem State.finish_grain (s : State) : s.finish.grain = s.grain := rfl

/-! ### `close` -/

@[simp] theorem State.close_hdr (s : State) : s.close.hdr = HeaderBytes.zero := rfl
@[simp] theorem State.close_acc (s : State) : s.close.acc = 0 := rfl
@[simp] theorem State.close_rem (s : State) : s.close.rem = 0 := rfl
@[simp] theorem State.close_idx (s : State) : s.close.idx = 0 := rfl
@[simp] theorem State.close_st (s : State) : s.close.st = .closed := rfl
@[simp] theorem State.close_ph (s : State) : s.close.ph = 0 := rfl
@[simp] theorem State.close_rsn (s : State) : s.close.rsn = 0 := rfl
@[simp] theorem State.close_evValid (s : State) : s.close.evValid = s.evValid := rfl
@[simp] theorem State.close_ev (s : State) : s.close.ev = s.ev := rfl
@[simp] theorem State.close_input (s : State) : s.close.input = s.input := rfl
@[simp] theorem State.close_events (s : State) : s.close.events = s.events := rfl
@[simp] theorem State.close_pos (s : State) : s.close.pos = s.pos := rfl
@[simp] theorem State.close_result (s : State) : s.close.result = s.result := rfl
@[simp] theorem State.close_grain (s : State) : s.close.grain = s.grain := rfl

/-! ### `resetRegisters` -/

@[simp] theorem State.resetRegisters_hdr (s : State) : s.resetRegisters.hdr = HeaderBytes.zero := rfl
@[simp] theorem State.resetRegisters_acc (s : State) : s.resetRegisters.acc = 0 := rfl
@[simp] theorem State.resetRegisters_rem (s : State) : s.resetRegisters.rem = 0 := rfl
@[simp] theorem State.resetRegisters_idx (s : State) : s.resetRegisters.idx = 0 := rfl
@[simp] theorem State.resetRegisters_st (s : State) : s.resetRegisters.st = .hdr := rfl
@[simp] theorem State.resetRegisters_ph (s : State) : s.resetRegisters.ph = 0 := rfl
@[simp] theorem State.resetRegisters_rsn (s : State) : s.resetRegisters.rsn = 0 := rfl
@[simp] theorem State.resetRegisters_evValid (s : State) : s.resetRegisters.evValid = false := rfl
@[simp] theorem State.resetRegisters_ev (s : State) : s.resetRegisters.ev = Event.zero := rfl
@[simp] theorem State.resetRegisters_input (s : State) : s.resetRegisters.input = s.input := rfl
@[simp] theorem State.resetRegisters_events (s : State) : s.resetRegisters.events = s.events := rfl
@[simp] theorem State.resetRegisters_pos (s : State) : s.resetRegisters.pos = 0 := rfl
@[simp] theorem State.resetRegisters_result (s : State) : s.resetRegisters.result = s.result := rfl
@[simp] theorem State.resetRegisters_grain (s : State) : s.resetRegisters.grain = s.grain := rfl

/-! ### `enterBody` -/

@[simp] theorem State.enterBody_hdr (s : State) (len : Word16) : (s.enterBody len).hdr = s.hdr := rfl
@[simp] theorem State.enterBody_acc (s : State) (len : Word16) : (s.enterBody len).acc = s.acc := rfl
@[simp] theorem State.enterBody_rem (s : State) (len : Word16) : (s.enterBody len).rem = len := rfl
@[simp] theorem State.enterBody_idx (s : State) (len : Word16) : (s.enterBody len).idx = s.idx := rfl
@[simp] theorem State.enterBody_st (s : State) (len : Word16) : (s.enterBody len).st = .body := rfl
@[simp] theorem State.enterBody_ph (s : State) (len : Word16) : (s.enterBody len).ph = s.ph := rfl
@[simp] theorem State.enterBody_rsn (s : State) (len : Word16) : (s.enterBody len).rsn = 0 := rfl
@[simp] theorem State.enterBody_evValid (s : State) (len : Word16) : (s.enterBody len).evValid = s.evValid := rfl
@[simp] theorem State.enterBody_ev (s : State) (len : Word16) : (s.enterBody len).ev = s.ev := rfl
@[simp] theorem State.enterBody_input (s : State) (len : Word16) : (s.enterBody len).input = s.input := rfl
@[simp] theorem State.enterBody_events (s : State) (len : Word16) : (s.enterBody len).events = s.events := rfl
@[simp] theorem State.enterBody_pos (s : State) (len : Word16) : (s.enterBody len).pos = s.pos := rfl
@[simp] theorem State.enterBody_result (s : State) (len : Word16) : (s.enterBody len).result = s.result := rfl
@[simp] theorem State.enterBody_grain (s : State) (len : Word16) : (s.enterBody len).grain = s.grain := rfl

/-! ### `takeReject` -/

@[simp] theorem State.takeReject_hdr (s : State) (k : BitVec 3) (len : Word16) : (s.takeReject k len).hdr = s.hdr := rfl
@[simp] theorem State.takeReject_acc (s : State) (k : BitVec 3) (len : Word16) : (s.takeReject k len).acc = s.acc := rfl
@[simp] theorem State.takeReject_rem (s : State) (k : BitVec 3) (len : Word16) : (s.takeReject k len).rem = len := rfl
@[simp] theorem State.takeReject_idx (s : State) (k : BitVec 3) (len : Word16) : (s.takeReject k len).idx = s.idx := rfl
@[simp] theorem State.takeReject_st (s : State) (k : BitVec 3) (len : Word16) : (s.takeReject k len).st = .skip := rfl
@[simp] theorem State.takeReject_ph (s : State) (k : BitVec 3) (len : Word16) : (s.takeReject k len).ph = s.ph := rfl
@[simp] theorem State.takeReject_rsn (s : State) (k : BitVec 3) (len : Word16) : (s.takeReject k len).rsn = k := rfl
@[simp] theorem State.takeReject_evValid (s : State) (k : BitVec 3) (len : Word16) : (s.takeReject k len).evValid = s.evValid := rfl
@[simp] theorem State.takeReject_ev (s : State) (k : BitVec 3) (len : Word16) : (s.takeReject k len).ev = s.ev := rfl
@[simp] theorem State.takeReject_input (s : State) (k : BitVec 3) (len : Word16) : (s.takeReject k len).input = s.input := rfl
@[simp] theorem State.takeReject_events (s : State) (k : BitVec 3) (len : Word16) : (s.takeReject k len).events = s.events := rfl
@[simp] theorem State.takeReject_pos (s : State) (k : BitVec 3) (len : Word16) : (s.takeReject k len).pos = s.pos := rfl
@[simp] theorem State.takeReject_result (s : State) (k : BitVec 3) (len : Word16) : (s.takeReject k len).result = s.result := rfl
@[simp] theorem State.takeReject_grain (s : State) (k : BitVec 3) (len : Word16) : (s.takeReject k len).grain = s.grain := rfl

/-! ### `returnFromReject` -/

@[simp] theorem State.returnFromReject_hdr (s : State) (e : Event) : (s.returnFromReject e).hdr = s.hdr := rfl
@[simp] theorem State.returnFromReject_acc (s : State) (e : Event) : (s.returnFromReject e).acc = 0 := rfl
@[simp] theorem State.returnFromReject_rem (s : State) (e : Event) : (s.returnFromReject e).rem = 0 := rfl
@[simp] theorem State.returnFromReject_idx (s : State) (e : Event) : (s.returnFromReject e).idx = 0 := rfl
@[simp] theorem State.returnFromReject_st (s : State) (e : Event) : (s.returnFromReject e).st = .hdr := rfl
@[simp] theorem State.returnFromReject_ph (s : State) (e : Event) : (s.returnFromReject e).ph = 0 := rfl
@[simp] theorem State.returnFromReject_rsn (s : State) (e : Event) : (s.returnFromReject e).rsn = 0 := rfl
@[simp] theorem State.returnFromReject_evValid (s : State) (e : Event) : (s.returnFromReject e).evValid = true := rfl
@[simp] theorem State.returnFromReject_ev (s : State) (e : Event) : (s.returnFromReject e).ev = e := rfl
@[simp] theorem State.returnFromReject_input (s : State) (e : Event) : (s.returnFromReject e).input = s.input := rfl
@[simp] theorem State.returnFromReject_events (s : State) (e : Event) : (s.returnFromReject e).events = s.events ++ [e] := rfl
@[simp] theorem State.returnFromReject_pos (s : State) (e : Event) : (s.returnFromReject e).pos = s.pos := rfl
@[simp] theorem State.returnFromReject_result (s : State) (e : Event) : (s.returnFromReject e).result = s.result := rfl
@[simp] theorem State.returnFromReject_grain (s : State) (e : Event) : (s.returnFromReject e).grain = s.grain := rfl

/-! ### `endFrame` -/

@[simp] theorem State.endFrame_hdr (s : State) (e : Event) : (s.endFrame e).hdr = s.hdr := rfl
@[simp] theorem State.endFrame_acc (s : State) (e : Event) : (s.endFrame e).acc = 0 := rfl
@[simp] theorem State.endFrame_rem (s : State) (e : Event) : (s.endFrame e).rem = 0 := rfl
@[simp] theorem State.endFrame_idx (s : State) (e : Event) : (s.endFrame e).idx = 0 := rfl
@[simp] theorem State.endFrame_st (s : State) (e : Event) : (s.endFrame e).st = .hdr := rfl
@[simp] theorem State.endFrame_ph (s : State) (e : Event) : (s.endFrame e).ph = 0 := rfl
@[simp] theorem State.endFrame_rsn (s : State) (e : Event) : (s.endFrame e).rsn = 0 := rfl
@[simp] theorem State.endFrame_evValid (s : State) (e : Event) : (s.endFrame e).evValid = true := rfl
@[simp] theorem State.endFrame_ev (s : State) (e : Event) : (s.endFrame e).ev = e := rfl
@[simp] theorem State.endFrame_input (s : State) (e : Event) : (s.endFrame e).input = s.input := rfl
@[simp] theorem State.endFrame_events (s : State) (e : Event) : (s.endFrame e).events = s.events ++ [e] := rfl
@[simp] theorem State.endFrame_pos (s : State) (e : Event) : (s.endFrame e).pos = s.pos := rfl
@[simp] theorem State.endFrame_result (s : State) (e : Event) : (s.endFrame e).result = s.result := rfl
@[simp] theorem State.endFrame_grain (s : State) (e : Event) : (s.endFrame e).grain = s.grain := rfl

/-! ### The reset state -/

@[simp] theorem State.reset_hdr : State.reset.hdr = HeaderBytes.zero := rfl
@[simp] theorem State.reset_acc : State.reset.acc = 0 := rfl
@[simp] theorem State.reset_rem : State.reset.rem = 0 := rfl
@[simp] theorem State.reset_idx : State.reset.idx = 0 := rfl
@[simp] theorem State.reset_st : State.reset.st = .hdr := rfl
@[simp] theorem State.reset_ph : State.reset.ph = 0 := rfl
@[simp] theorem State.reset_rsn : State.reset.rsn = 0 := rfl
@[simp] theorem State.reset_evValid : State.reset.evValid = false := rfl
@[simp] theorem State.reset_ev : State.reset.ev = Event.zero := rfl
@[simp] theorem State.reset_input : State.reset.input = [] := rfl
@[simp] theorem State.reset_events : State.reset.events = [] := rfl
@[simp] theorem State.reset_pos : State.reset.pos = 0 := rfl
@[simp] theorem State.reset_result : State.reset.result = .none := rfl
@[simp] theorem State.reset_grain : State.reset.grain = .beat := rfl

/-- What standing at a frame boundary says of the registers. -/
theorem State.atBoundary_iff (s : State) :
    s.atBoundary = true ↔ s.st = .hdr ∧ s.idx = 0 ∧ s.rem = 0 ∧ s.acc = 0 ∧ s.ph = 0 ∧ s.rsn = 0 := by
  simp [State.atBoundary, and_assoc]

/-- The frame end leaves the block at a frame boundary. -/
@[simp] theorem State.finish_atBoundary (s : State) : s.finish.atBoundary = true := rfl

/-- The input stream does not say where the block stands. -/
@[simp] theorem State.withInput_atBoundary (s : State) (es : List Edge) :
    (s.withInput es).atBoundary = s.atBoundary := rfl

/-- A closed block is not at a frame boundary. -/
theorem State.atBoundary_of_closed (s : State) (h : s.st = .closed) : s.atBoundary = false := by
  simp [State.atBoundary, h]

end Sys2Proof.Machine
end

