-- ==== Sys2Proof/Laws/Ops.lean ====
section
/-! SUPPORT. What the shared operations can do, each said once: the header bytes, the byte order, taking bytes from the
input, the beats, the whole-frame run and the fetch. -/

namespace Sys2Proof

/-! ### Header bytes and byte order -/

/-- Reading back the byte just latched (R21). -/
@[simp] theorem HeaderBytes.get_set_same (h : HeaderBytes) (i : BitVec 3) (b : Byte) : (h.set i b).get i = b := by
  rcases i with ⟨⟨i, hi⟩⟩
  have : i < 8 := hi
  interval_cases i <;> rfl

/-- Latching one header byte leaves the others (R21). -/
theorem HeaderBytes.get_set_other (h : HeaderBytes) (i j : BitVec 3) (b : Byte) (hij : i ≠ j) :
    (h.set i b).get j = h.get j := by
  rcases i with ⟨⟨i, hi⟩⟩
  rcases j with ⟨⟨j, hj⟩⟩
  have : i < 8 := hi
  have : j < 8 := hj
  interval_cases i <;> interval_cases j <;> first | rfl | exact absurd rfl hij

/-- Eight bytes as a list and back. -/
@[simp] theorem HeaderBytes.ofList_toList (h : HeaderBytes) : HeaderBytes.ofList h.toList = some h := rfl

/-- A header has eight bytes (R67). -/
@[simp] theorem HeaderBytes.toList_length (h : HeaderBytes) : h.toList.length = 8 := rfl

/-- The bytes of the header word are the header bytes (R10). -/
@[simp] theorem unpackHeader_packHeader (h : HeaderBytes) : unpackHeader (packHeader h) = h := by
  rcases h with ⟨b0, b1, b2, b3, b4, b5, b6, b7⟩
  simp only [unpackHeader, packHeader, HeaderBytes.mk.injEq]
  refine ⟨?_, ?_, ?_, ?_, ?_, ?_, ?_, ?_⟩ <;>
    · ext i hi
      simp only [BitVec.getElem_extractLsb', BitVec.getLsbD_append]
      have : i < 8 := hi
      interval_cases i <;> simp

/-- The header word of its bytes is the word (R10). -/
@[simp] theorem packHeader_unpackHeader (w : HeaderWord) : packHeader (unpackHeader w) = w := by
  apply BitVec.eq_of_getLsbD_eq
  intro i hi
  simp only [unpackHeader, packHeader, BitVec.getLsbD_append, BitVec.getLsbD_extractLsb']
  interval_cases i <;> simp

/-- `be16(hi, lo) = hi * 256 + lo` (R10). -/
theorem be16_toNat (hi lo : Byte) : (be16 hi lo).toNat = hi.toNat * 256 + lo.toNat := by
  rw [be16, BitVec.toNat_append, Nat.shiftLeft_eq, Nat.mul_comm, Nat.two_pow_add_eq_or_of_lt lo.isLt]

end Sys2Proof

namespace Sys2Proof.Machine

/-! ### Taking bytes (R46) -/

/-- Never more bytes than asked for. -/
theorem takeBytes_length_le (n : Nat) (es : List Edge) : (takeBytes n es).1.length ≤ n := by
  induction es generalizing n with
  | nil => cases n <;> simp [takeBytes]
  | cons e es ih =>
    cases n with
    | zero => simp [takeBytes]
    | succ n =>
      simp only [takeBytes]
      split
      · simp
      · split
        · exact ih (n + 1)
        · split
          · simp
          · simpa using ih n

/-- What is left is an end of the input. -/
theorem takeBytes_suffix (n : Nat) (es : List Edge) : (takeBytes n es).2 <:+ es := by
  induction es generalizing n with
  | nil => cases n <;> simp [takeBytes]
  | cons e es ih =>
    cases n with
    | zero => simp [takeBytes]
    | succ n =>
      simp only [takeBytes]
      split
      · simp
      · split
        · exact (ih (n + 1)).trans (List.suffix_cons e es)
        · split
          · simp
          · exact (ih n).trans (List.suffix_cons e es)

/-- From a run of byte beats the bytes come out in order, and the taking goes on behind them. -/
theorem takeBytes_byteEdges (bytes : List Byte) (n : Nat) (rest : List Edge) :
    takeBytes (bytes.length + n) (bytes.map byteEdge ++ rest) =
      (bytes ++ (takeBytes n rest).1, (takeBytes n rest).2) := by
  induction bytes with
  | nil => simp
  | cons b bytes ih =>
    have : (b :: bytes).length + n = (bytes.length + n) + 1 := by simp; omega
    rw [this]
    simp [takeBytes, byteEdge, ih]

/-- Exactly as many byte beats as asked for are taken whole. -/
@[simp] theorem takeBytes_exact (bytes : List Byte) (rest : List Edge) :
    takeBytes bytes.length (bytes.map byteEdge ++ rest) = (bytes, rest) := by
  have h := takeBytes_byteEdges bytes 0 rest
  simpa [takeBytes] using h

/-! ### The beats (R151) -/

/-- All a `BYTE` beat can do: the step of its sequencer state, or no step in `CLOSED`. -/
theorem byteBeat_cases (b : Byte) (s : State) :
    (s.st = .hdr ∧ s.idx.toNat < 7 ∧ byteBeat b s = .next (latchHeaderByte b s)) ∨
    (s.st = .hdr ∧ ¬ s.idx.toNat < 7 ∧ byteBeat b s = .next (completeHeader b s)) ∨
    (s.st = .body ∧ byteBeat b s = .next (bodyByte b s)) ∨
    (s.st = .skip ∧ byteBeat b s = .next (skipByte s)) ∨
    (s.st = .closed ∧ byteBeat b s = .fault .beatNotAccepted) := by
  unfold byteBeat
  cases hst : s.st
  · by_cases hi : s.idx.toNat < 7
    · exact .inl ⟨rfl, hi, by simp [hi]⟩
    · exact .inr (.inl ⟨rfl, hi, by simp [hi]⟩)
  · exact .inr (.inr (.inl ⟨rfl, rfl⟩))
  · exact .inr (.inr (.inr (.inl ⟨rfl, rfl⟩)))
  · exact .inr (.inr (.inr (.inr ⟨rfl, rfl⟩)))

/-- All `EOS` can do: close the stream, or no step in `CLOSED`. -/
theorem execEos_cases (s : State) :
    (s.st ≠ .closed ∧ execEos s = .next ((s.emit (closedEvent (truncFlag s.st s.idx))).close)) ∨
    (s.st = .closed ∧ execEos s = .fault .beatNotAccepted) := by
  unfold execEos
  cases hst : s.st <;> simp

/-- All a header class run as one instruction can do (R161 to R167). -/
theorem runFrame_cases (h : HeaderBytes) (k : BitVec 3) (event : List Byte → Event) (s : State) :
    (s.atBoundary = true ∧ ∃ body rest, takeBytes (hdrLen h).toNat s.input = (body, rest) ∧
      ((body.length = (hdrLen h).toNat ∧ runFrame h k event s = .next (s.completeFrame h body rest (event body))) ∨
       (body.length < (hdrLen h).toNat ∧ runFrame h k event s = .next (s.openFrame h k body rest)))) ∨
    (s.atBoundary = false ∧ runFrame h k event s = deliverBytes h.toList s) := by
  cases hb : s.atBoundary with
  | false => exact .inr ⟨rfl, by simp [runFrame, hb]⟩
  | true =>
    refine .inl ⟨rfl, _, _, rfl, ?_⟩
    have hle := takeBytes_length_le (hdrLen h).toNat s.input
    by_cases heq : (takeBytes (hdrLen h).toNat s.input).1.length = (hdrLen h).toNat
    · exact .inl ⟨heq, by simp [runFrame, hb, heq]⟩
    · exact .inr ⟨by omega, by simp [runFrame, hb, heq]⟩

/-! ### The fetch -/

/-- All an edge can bring (R73, R230, R156). -/
theorem fetchEdge_cases (s : State) :
    (s.input = [] ∧ fetchEdge s = .noBeat s.quiet) ∨
    ∃ e rest, s.input = e :: rest ∧
      ((e.rst = true ∧ fetchEdge s = .noBeat (s.withInput rest).resetRegisters) ∨
       (e.rst = false ∧ e.valid = false ∧ fetchEdge s = .noBeat (s.withInput rest).quiet) ∨
       (e.rst = false ∧ e.valid = true ∧ s.st = .closed ∧ rest.any Edge.rst = true ∧
         fetchEdge s = .noBeat (s.withInput rest).quiet) ∨
       (e.rst = false ∧ e.valid = true ∧ (s.st ≠ .closed ∨ rest.any Edge.rst = false) ∧
         fetchEdge s = .run (decodeBeat e.beat) (s.withInput rest))) := by
  cases hin : s.input with
  | nil => exact .inl ⟨rfl, by simp [fetchEdge, hin]⟩
  | cons e rest =>
    refine .inr ⟨e, rest, rfl, ?_⟩
    cases hr : e.rst with
    | true => exact .inl ⟨rfl, by simp [fetchEdge, hin, hr]⟩
    | false =>
      cases hv : e.valid with
      | false => exact .inr (.inl ⟨rfl, rfl, by simp [fetchEdge, hin, hr, hv]⟩)
      | true =>
        by_cases hc : s.st = .closed ∧ rest.any Edge.rst = true
        · exact .inr (.inr (.inl ⟨rfl, rfl, hc.1, hc.2, by
            simp only [fetchEdge, hin, hr, hv, hc.1, hc.2, State.inReady]
            rfl⟩))
        · refine .inr (.inr (.inr ⟨rfl, rfl, ?_, ?_⟩))
          · by_cases h : s.st = .closed
            · exact .inr (by simpa [h] using hc)
            · exact .inl h
          · have : (!s.inReady && rest.any Edge.rst) = false := by
              by_cases h : s.st = .closed
              · have : rest.any Edge.rst = false := by simpa [h] using hc
                simp [this]
              · simp [State.inReady, h]
            simp [fetchEdge, hin, hr, hv, this, decode]

end Sys2Proof.Machine
end

