-- ==== Sys2Proof/Laws/Checksum.lean ====
section
/-! SUPPORT. What the functions of the checksum unit do (spec/40_checksum.md), as arithmetic on numbers. -/

namespace Sys2Proof.Machine

/-- A byte assembled with a zero low byte (R91). -/
@[simp] theorem be16_zero_toNat (hi : Byte) : (be16 hi 0#8).toNat = hi.toNat * 256 := by
  rw [be16_toNat]
  simp

/-- One pass of the fold as division with remainder (R92). -/
theorem foldPass_eq (s : Nat) : foldPass s = s % 65536 + s / 65536 := by
  have low : s &&& 0xFFFF = s % 65536 := by
    simpa using Nat.and_two_pow_sub_one_eq_mod s 16
  rw [foldPass, low, Nat.shiftRight_eq_div_pow]

/-- The fold's loop does nothing once the number fits 16 bits (R92). -/
theorem foldLoop_of_lt (fuel s : Nat) (h : s < 65536) : foldLoop fuel s = s := by
  cases fuel with
  | zero => rfl
  | succ fuel =>
    have : s >>> 16 = 0 := by
      rw [Nat.shiftRight_eq_div_pow]
      omega
    simp [foldLoop, this]

/-- The fold's loop makes a pass while the number does not fit 16 bits (R92). -/
theorem foldLoop_of_ge (fuel s : Nat) (h : 65536 ≤ s) :
    foldLoop (fuel + 1) s = foldLoop fuel (s % 65536 + s / 65536) := by
  have : s >>> 16 ≠ 0 := by
    rw [Nat.shiftRight_eq_div_pow]
    omega
  rw [foldLoop, if_neg this, foldPass_eq]

/-- The complement of a 16-bit number (R93). -/
theorem complement16_toNat (w : Word16) : (~~~w).toNat = 65535 - w.toNat := by
  simp [BitVec.toNat_not]

/-- The covered bytes of a frame, one by one (R94). -/
theorem csumCover_eq (h : HeaderBytes) (body : List Byte) :
    csumCover h body = h.b0 :: h.b1 :: h.b2 :: h.b3 :: 0xCC :: 0xCC :: h.b6 :: h.b7 :: body := rfl

/-- The covered bytes of a frame: eight of the header and the body (R94). -/
@[simp] theorem csumCover_length (h : HeaderBytes) (body : List Byte) : (csumCover h body).length = 8 + body.length := by
  simp [csumCover_eq]
  omega

/-- The sum of a frame's covered bytes: four header words and the body's sum (R91, R94). -/
theorem csumSum_csumCover (h : HeaderBytes) (body : List Byte) :
    csumSum (csumCover h body) =
      (be16 h.b0 h.b1).toNat + (be16 h.b2 h.b3).toNat + 0xCCCC + (be16 h.b6 h.b7).toNat + csumSum body := by
  simp only [csumCover_eq, csumSum]
  have : (be16 0xCC 0xCC).toNat = 0xCCCC := by decide
  omega

/-- One more byte at the end adds its value, as a high byte after an even number of bytes and a low byte after an odd one
(R91, R96). -/
theorem csumSum_snoc (data : List Byte) (b : Byte) :
    csumSum (data ++ [b]) = csumSum data + b.toNat * (if data.length % 2 = 0 then 256 else 1) := by
  induction data using csumSum.induct with
  | case1 => simp [csumSum]
  | case2 a => simp [csumSum, be16_toNat]
  | case3 a c rest ih =>
    have parity : (rest.length + 1 + 1) % 2 = rest.length % 2 := by omega
    simp only [List.cons_append, csumSum, ih, List.length_cons, parity]
    omega

/-- A sum is at most 65535 for each word and 65280 for an odd last byte (R91). -/
theorem csumSum_le (data : List Byte) : csumSum data ≤ 65535 * (data.length / 2) + 65280 * (data.length % 2) := by
  induction data using csumSum.induct with
  | case1 => simp [csumSum]
  | case2 a =>
    have := a.isLt
    simp [csumSum]
    omega
  | case3 a c rest ih =>
    have := (be16 a c).isLt
    simp only [csumSum, List.length_cons]
    omega

/-- The phase has two values (R27). -/
theorem phase_cases (ph : BitVec 1) : ph = 0 ∨ ph = 1 := by
  revert ph
  decide

/-- The phase toggles (R27). -/
theorem nextPhase_eq (ph : BitVec 1) : nextPhase ph = if ph = 0 then 1 else 0 := by
  rcases phase_cases ph with rfl | rfl <;> rfl

/-- One more covered byte toggles the phase of their number (R27, R99). -/
theorem nextPhase_phaseAfter (n : Nat) : nextPhase (phaseAfter n) = phaseAfter (n + 1) := by
  apply BitVec.eq_of_toNat_eq
  rw [nextPhase_eq]
  have phase : phaseAfter n = 0 ↔ n % 2 = 0 := by
    rw [← BitVec.toNat_inj]
    simp [phaseAfter]
  by_cases h : phaseAfter n = 0
  · rw [if_pos h]
    simp only [phaseAfter, BitVec.toNat_ofNat]
    have := phase.1 h
    have : (1 : BitVec 1).toNat = 1 := rfl
    omega
  · rw [if_neg h]
    simp only [phaseAfter, BitVec.toNat_ofNat]
    have := phase.not.1 h
    have : (0 : BitVec 1).toNat = 0 := rfl
    omega

/-- The phase of an even number of covered bytes is 0 and of an odd number 1 (R27). -/
theorem phaseAfter_eq_zero (n : Nat) : phaseAfter n = 0 ↔ n % 2 = 0 := by
  rw [← BitVec.toNat_inj]
  simp [phaseAfter]

/-- `CSUM.ABSORB` with the byte's weight (R98). -/
theorem csumAbsorb_eq (acc : Word32) (ph : BitVec 1) (a : Byte) :
    csumAbsorb acc ph a =
      (acc + BitVec.ofNat 32 (a.toNat * (if ph = 0 then 256 else 1)), nextPhase ph) := by
  have ha := a.isLt
  rcases phase_cases ph with rfl | rfl
  · simp only [csumAbsorb, if_true, Prod.mk.injEq, and_true]
    congr 1
    apply BitVec.eq_of_toNat_eq
    simp [Nat.shiftLeft_eq]
  · simp [csumAbsorb]

end Sys2Proof.Machine
end

