-- ==== Sys2Proof/Laws/Decode.lean ====
section
/-! SUPPORT. The header word and its classes in terms of the eight bytes: the first-match table (spec/30_encoding.md R69) as
a case split on the bytes, the five checks (41_header_parse.md R120) in the same form, and the fields of an encoded word. -/

namespace Sys2Proof

/-! ### The fields of a word and its bytes -/

/-- The high byte of two assembled bytes (R10). -/
@[simp] theorem hi8_be16 (hi lo : Byte) : hi8 (be16 hi lo) = hi := by
  apply BitVec.eq_of_getLsbD_eq
  intro i h
  simp only [be16, hi8, BitVec.getLsbD_append, BitVec.getLsbD_extractLsb']
  interval_cases i <;> simp

/-- The low byte of two assembled bytes (R10). -/
@[simp] theorem lo8_be16 (hi lo : Byte) : lo8 (be16 hi lo) = lo := by
  apply BitVec.eq_of_getLsbD_eq
  intro i h
  simp only [be16, lo8, BitVec.getLsbD_append, BitVec.getLsbD_extractLsb']
  interval_cases i <;> simp

/-- A word is its two bytes (R10). -/
@[simp] theorem be16_hi8_lo8 (w : Word16) : be16 (hi8 w) (lo8 w) = w := by
  apply BitVec.eq_of_getLsbD_eq
  intro i h
  simp only [be16, hi8, lo8, BitVec.getLsbD_append, BitVec.getLsbD_extractLsb']
  interval_cases i <;> simp

/-- Two headers with one header word are one header (R10). -/
theorem packHeader_inj (h k : HeaderBytes) : packHeader h = packHeader k ↔ h = k := by
  constructor
  · intro e
    rw [← unpackHeader_packHeader h, e, unpackHeader_packHeader]
  · rintro rfl
    rfl

/-- Masking a header word masks its bytes. -/
theorem packHeader_and (h m : HeaderBytes) :
    packHeader h &&& packHeader m =
      packHeader ⟨h.b0 &&& m.b0, h.b1 &&& m.b1, h.b2 &&& m.b2, h.b3 &&& m.b3, h.b4 &&& m.b4, h.b5 &&& m.b5,
        h.b6 &&& m.b6, h.b7 &&& m.b7⟩ := by
  apply BitVec.eq_of_getLsbD_eq
  intro i hi
  simp only [packHeader, BitVec.getLsbD_and, BitVec.getLsbD_append]
  interval_cases i <;> simp

/-- A pattern given by bytes covers a header when each byte agrees (R69). -/
theorem Pattern.covers_packHeader (h m v : HeaderBytes) :
    Pattern.covers ⟨packHeader m, packHeader v⟩ (packHeader h) = true ↔
      h.b0 &&& m.b0 = v.b0 ∧ h.b1 &&& m.b1 = v.b1 ∧ h.b2 &&& m.b2 = v.b2 ∧ h.b3 &&& m.b3 = v.b3 ∧
      h.b4 &&& m.b4 = v.b4 ∧ h.b5 &&& m.b5 = v.b5 ∧ h.b6 &&& m.b6 = v.b6 ∧ h.b7 &&& m.b7 = v.b7 := by
  rcases v with ⟨⟩
  simp only [Pattern.covers, beq_iff_eq, packHeader_and, packHeader_inj, HeaderBytes.mk.injEq]

/-- The first-match table by bytes (R69). -/
theorem firstMatchTable_bytes : firstMatchTable =
    [(.frmPlain, ⟨packHeader ⟨0xFF, 0xFF, 0, 0, 0xFF, 0xFF, 0xFF, 0xFF⟩, packHeader ⟨0xCC, 0, 0, 0, 0, 0, 0, 0⟩⟩),
     (.frmSens, ⟨packHeader ⟨0xFF, 0xFF, 0, 0, 0, 0, 0xFF, 0xFF⟩, packHeader ⟨0xCC, 0x40, 0, 0, 0, 0, 0, 0⟩⟩),
     (.rejRsvd, ⟨packHeader ⟨0xFF, 0x80, 0, 0, 0, 0, 0, 0⟩, packHeader ⟨0xCC, 0x80, 0, 0, 0, 0, 0, 0⟩⟩),
     (.rejPad4, ⟨packHeader ⟨0xFF, 0xFF, 0, 0, 0, 0, 0, 0⟩, packHeader ⟨0xCC, 0, 0, 0, 0, 0, 0, 0⟩⟩),
     (.rejPad2, ⟨packHeader ⟨0xFF, 0xFF, 0, 0, 0, 0, 0, 0⟩, packHeader ⟨0xCC, 0x40, 0, 0, 0, 0, 0, 0⟩⟩),
     (.rejPadbits, ⟨packHeader ⟨0xFF, 0x80, 0, 0, 0, 0, 0, 0⟩, packHeader ⟨0xCC, 0, 0, 0, 0, 0, 0, 0⟩⟩),
     (.rejMagic, ⟨packHeader ⟨0, 0, 0, 0, 0, 0, 0, 0⟩, packHeader ⟨0, 0, 0, 0, 0, 0, 0, 0⟩⟩)] := by decide

/-- A full mask keeps a byte. -/
theorem byte_and_ff (b : Byte) : b &&& 255#8 = b := by
  revert b
  decide

/-- The class of a header by its bytes (R68, R69). -/
theorem classOf_packHeader (h : HeaderBytes) : classOf (packHeader h) =
    if h.b0 = 0xCC#8 then
      if h.b1 = 0#8 then if h.b4 = 0#8 ∧ h.b5 = 0#8 ∧ h.b6 = 0#8 ∧ h.b7 = 0#8 then .frmPlain else .rejPad4
      else if h.b1 = 0x40#8 then if h.b6 = 0#8 ∧ h.b7 = 0#8 then .frmSens else .rejPad2
      else if h.b1 &&& 0x80#8 = 0#8 then .rejPadbits else .rejRsvd
    else .rejMagic := by
  have bit7 : ∀ b : Byte, b &&& 0x80#8 = 0#8 ∨ b &&& 0x80#8 = 0x80#8 := by decide
  simp only [classOf, firstMatchTable_bytes, firstMatch, Pattern.covers_packHeader]
  simp only [BitVec.ofNat_eq_ofNat, byte_and_ff, BitVec.and_zero, true_and, and_true]
  by_cases h0 : h.b0 = 0xCC#8
  · simp only [h0, true_and, if_true]
    by_cases h1 : h.b1 = 0#8
    · simp [h1]
    · by_cases h2 : h.b1 = 0x40#8
      · simp [h2]
      · rcases bit7 h.b1 with e | e <;> simp [h1, h2, e]
  · simp [h0]

/-- The length field of a header word (R61). -/
theorem packHeader_length (h : HeaderBytes) : (packHeader h).extractLsb' 32 16 = be16 h.b2 h.b3 := by
  apply BitVec.eq_of_getLsbD_eq
  intro i hi
  simp only [packHeader, be16, BitVec.getLsbD_append, BitVec.getLsbD_extractLsb']
  interval_cases i <;> simp

/-- The checksum field of a header word (R61). -/
theorem packHeader_checksum (h : HeaderBytes) : (packHeader h).extractLsb' 16 16 = be16 h.b4 h.b5 := by
  apply BitVec.eq_of_getLsbD_eq
  intro i hi
  simp only [packHeader, be16, BitVec.getLsbD_append, BitVec.getLsbD_extractLsb']
  interval_cases i <;> simp

/-! ### The four parts of an encoded word -/

/-- The bytes of an encoded word (R61). -/
theorem headerWord_bytes (magic options : Byte) (length : Word16) (tail : Word32) :
    headerWord magic options length tail =
      packHeader ⟨magic, options, hi8 length, lo8 length, tail.extractLsb' 24 8, tail.extractLsb' 16 8,
        tail.extractLsb' 8 8, tail.extractLsb' 0 8⟩ := by
  apply BitVec.eq_of_getLsbD_eq
  intro i hi
  simp only [packHeader, headerWord, hi8, lo8, BitVec.getLsbD_append, BitVec.getLsbD_extractLsb']
  interval_cases i <;> simp

/-- A word is its four parts (R61). -/
theorem headerWord_parts (w : HeaderWord) :
    headerWord (w.extractLsb' 56 8) (w.extractLsb' 48 8) (w.extractLsb' 32 16) (w.extractLsb' 0 32) = w := by
  apply BitVec.eq_of_getLsbD_eq
  intro i hi
  simp only [headerWord, BitVec.getLsbD_append, BitVec.getLsbD_extractLsb']
  interval_cases i <;> simp

/-- The magic byte of an encoded word. -/
@[simp] theorem headerWord_magic (magic options : Byte) (length : Word16) (tail : Word32) :
    (headerWord magic options length tail).extractLsb' 56 8 = magic := by
  apply BitVec.eq_of_getLsbD_eq
  intro i hi
  simp only [headerWord, BitVec.getLsbD_append, BitVec.getLsbD_extractLsb']
  interval_cases i <;> simp

/-- The options byte of an encoded word. -/
@[simp] theorem headerWord_options (magic options : Byte) (length : Word16) (tail : Word32) :
    (headerWord magic options length tail).extractLsb' 48 8 = options := by
  apply BitVec.eq_of_getLsbD_eq
  intro i hi
  simp only [headerWord, BitVec.getLsbD_append, BitVec.getLsbD_extractLsb']
  interval_cases i <;> simp

/-- The length field of an encoded word. -/
@[simp] theorem headerWord_length (magic options : Byte) (length : Word16) (tail : Word32) :
    (headerWord magic options length tail).extractLsb' 32 16 = length := by
  apply BitVec.eq_of_getLsbD_eq
  intro i hi
  simp only [headerWord, BitVec.getLsbD_append, BitVec.getLsbD_extractLsb']
  interval_cases i <;> simp

/-- The last four bytes of an encoded word. -/
@[simp] theorem headerWord_tail (magic options : Byte) (length : Word16) (tail : Word32) :
    (headerWord magic options length tail).extractLsb' 0 32 = tail := by
  apply BitVec.eq_of_getLsbD_eq
  intro i hi
  simp only [headerWord, BitVec.getLsbD_append, BitVec.getLsbD_extractLsb']
  interval_cases i <;> simp

/-- The bits of the options byte of an encoded word. -/
theorem headerWord_optionBits (magic options : Byte) (length : Word16) (tail : Word32) :
    (headerWord magic options length tail).extractLsb' 48 7 = options.extractLsb' 0 7 ∧
    (headerWord magic options length tail).extractLsb' 54 1 = options.extractLsb' 6 1 ∧
    (headerWord magic options length tail).extractLsb' 48 6 = options.extractLsb' 0 6 := by
  refine ⟨?_, ?_, ?_⟩ <;>
  · apply BitVec.eq_of_getLsbD_eq
    intro i hi
    simp only [headerWord, BitVec.getLsbD_append, BitVec.getLsbD_extractLsb']
    interval_cases i <;> simp

/-- The two halves of the last four bytes. -/
theorem headerWord_tailHalves (magic options : Byte) (length hi lo : Word16) :
    (headerWord magic options length (hi ++ lo)).extractLsb' 16 16 = hi ∧
    (headerWord magic options length (hi ++ lo)).extractLsb' 0 16 = lo := by
  constructor <;>
  · apply BitVec.eq_of_getLsbD_eq
    intro i h
    simp only [headerWord, BitVec.getLsbD_append, BitVec.getLsbD_extractLsb']
    interval_cases i <;> simp

/-- Four bytes are their two halves. -/
theorem tail_halves (tail : Word32) : (tail.extractLsb' 16 16 ++ tail.extractLsb' 0 16 : Word32) = tail := by
  apply BitVec.eq_of_getLsbD_eq
  intro i h
  simp only [BitVec.getLsbD_append, BitVec.getLsbD_extractLsb']
  interval_cases i <;> simp

/-- Four bytes are zero when each is. -/
theorem tail_eq_zero (tail : Word32) : tail = 0#32 ↔
    tail.extractLsb' 24 8 = 0#8 ∧ tail.extractLsb' 16 8 = 0#8 ∧ tail.extractLsb' 8 8 = 0#8 ∧
    tail.extractLsb' 0 8 = 0#8 := by
  constructor
  · rintro rfl
    decide
  · rintro ⟨h1, h2, h3, h4⟩
    have parts : tail = (tail.extractLsb' 24 8 ++ tail.extractLsb' 16 8 ++ tail.extractLsb' 8 8 ++ tail.extractLsb' 0 8) := by
      apply BitVec.eq_of_getLsbD_eq
      intro i h
      simp only [BitVec.getLsbD_append, BitVec.getLsbD_extractLsb']
      interval_cases i <;> simp
    rw [parts, h1, h2, h3, h4]
    rfl

/-- The last two of four bytes are zero when the low half is. -/
theorem tail_low_eq_zero (hi lo : Word16) :
    ((hi ++ lo : Word32).extractLsb' 8 8 = 0#8 ∧ (hi ++ lo : Word32).extractLsb' 0 8 = 0#8) ↔ lo = 0#16 := by
  have parts : lo = ((hi ++ lo : Word32).extractLsb' 8 8 ++ (hi ++ lo : Word32).extractLsb' 0 8) := by
    apply BitVec.eq_of_getLsbD_eq
    intro i h
    simp only [BitVec.getLsbD_append, BitVec.getLsbD_extractLsb']
    interval_cases i <;> simp
  constructor
  · rintro ⟨h1, h2⟩
    rw [parts, h1, h2]
    rfl
  · rintro rfl
    constructor <;>
    · apply BitVec.eq_of_getLsbD_eq
      intro i h
      simp only [BitVec.getLsbD_append, BitVec.getLsbD_extractLsb']
      interval_cases i <;> simp

/-- The class of an encoded word by its four parts (R68, R69). -/
theorem classOf_headerWord (magic options : Byte) (length : Word16) (tail : Word32) :
    classOf (headerWord magic options length tail) =
      if magic = 0xCC#8 then
        if options = 0#8 then if tail = 0#32 then .frmPlain else .rejPad4
        else if options = 0x40#8 then
          if tail.extractLsb' 8 8 = 0#8 ∧ tail.extractLsb' 0 8 = 0#8 then .frmSens else .rejPad2
        else if options &&& 0x80#8 = 0#8 then .rejPadbits else .rejRsvd
      else .rejMagic := by
  rw [headerWord_bytes, classOf_packHeader]
  simp only [tail_eq_zero]

end Sys2Proof

namespace Sys2Proof.Machine

/-- The five checks (R120) as the same case split on the bytes as the first-match table's. -/
theorem hdrParse_bytes (h : HeaderBytes) : hdrParse h =
    if h.b0 = 0xCC#8 then
      if h.b1 = 0#8 then
        if h.b4 = 0#8 ∧ h.b5 = 0#8 ∧ h.b6 = 0#8 ∧ h.b7 = 0#8 then .ok (hdrLen h) false else .err .pad4
      else if h.b1 = 0x40#8 then if h.b6 = 0#8 ∧ h.b7 = 0#8 then .ok (hdrLen h) true else .err .pad2
      else if h.b1 &&& 0x80#8 = 0#8 then .err .padbits else .err .rsvd
    else .err .magic := by
  have padding : ∀ b : Byte, b ≠ 0#8 → b ≠ 0x40#8 → b &&& 0x80#8 = 0#8 → b &&& 0x3F#8 ≠ 0#8 := by decide
  simp only [hdrParse, hdrSens, Config.magic, Config.optReserved, Config.optPadding, Config.optSensitive,
    BitVec.ofNat_eq_ofNat]
  by_cases h0 : h.b0 = 0xCC#8
  · by_cases h1 : h.b1 = 0#8
    · simp only [h0, h1]
      by_cases ht : h.b4 = 0#8 ∧ h.b5 = 0#8 ∧ h.b6 = 0#8 ∧ h.b7 = 0#8
      · obtain ⟨h4, h5, h6, h7⟩ := ht
        simp [h4, h5, h6, h7]
      · have : h.b4 ≠ 0#8 ∨ h.b5 ≠ 0#8 ∨ h.b6 ≠ 0#8 ∨ h.b7 ≠ 0#8 := by
          by_contra hc
          simp only [not_or, not_not] at hc
          exact ht hc
        simp [ht, this]
    · by_cases h2 : h.b1 = 0x40#8
      · simp only [h0, h2]
        by_cases ht : h.b6 = 0#8 ∧ h.b7 = 0#8
        · obtain ⟨h6, h7⟩ := ht
          simp [h6, h7]
        · have : h.b6 ≠ 0#8 ∨ h.b7 ≠ 0#8 := by
            by_contra hc
            simp only [not_or, not_not] at hc
            exact ht hc
          simp [ht, this]
      · by_cases e : h.b1 &&& 0x80#8 = 0#8
        · simp [h0, h1, h2, e, padding _ h1 h2 e]
        · simp [h0, h1, h2, e]
  · simp [h0]

/-- `HDR.SENS` of an accepted header is its parse result (R120, R123). -/
theorem hdrParse_ok (h : HeaderBytes) (length : Word16) (sens : Bool) (ok : hdrParse h = .ok length sens) :
    length = hdrLen h ∧ sens = hdrSens h := by
  simp only [hdrParse] at ok
  repeat' split at ok
  all_goals cases ok
  all_goals exact ⟨rfl, rfl⟩

/-- The code of a parse is 0 exactly when the header is accepted (R28). -/
theorem parseCode_eq_zero (p : Parse) : parseCode p = 0 ↔ ∃ length sens, p = .ok length sens := by
  cases p with
  | ok length sens => simp [parseCode]
  | err k => cases k <;> simp [parseCode, Reason.code]

/-- The code of a reason is not 0 (R28, R121). -/
@[simp] theorem Reason.code_ne_zero (k : Reason) : k.code ≠ 0 := by cases k <;> decide

end Sys2Proof.Machine
end

