-- ==== Sys2Proof/Laws/PerInstr.lean ====
section
/-! SUPPORT. The statements for all instructions, one lemma per constructor of `Instr`. Family `WireFormat`: the word the
encoder writes has the format the opcode table gives the row (spec/30_encoding.md R60). -/

namespace Sys2Proof.Laws.WireFormat

/-- A row of format `H64` is encoded in a 64-bit header word, one of `B9` in a 9-bit beat, and one of `FUNC` not at all. -/
def Statement (i : Instr) : Prop :=
  match i.format with
  | .h64 => ∃ w, encode i = some (.h64 w)
  | .b9 => ∃ w, encode i = some (.b9 w)
  | .func => encode i = none

theorem frmPlain (length : Word16) : Statement (.frmPlain length) := ⟨_, rfl⟩

theorem frmSens (length claimed : Word16) : Statement (.frmSens length claimed) := ⟨_, rfl⟩

theorem rejRsvd (low : BitVec 7) (length : Word16) (tail : Word32) : Statement (.rejRsvd low length tail) := ⟨_, rfl⟩

theorem rejPad4 (length : Word16) (tail : Word32) : Statement (.rejPad4 length tail) := ⟨_, rfl⟩

theorem rejPad2 (length checksum pad : Word16) : Statement (.rejPad2 length checksum pad) := ⟨_, rfl⟩

theorem rejPadbits (sens : BitVec 1) (padding : BitVec 6) (length : Word16) (tail : Word32) :
    Statement (.rejPadbits sens padding length tail) := ⟨_, rfl⟩

theorem rejMagic (magic options : Byte) (length : Word16) (tail : Word32) :
    Statement (.rejMagic magic options length tail) := ⟨_, rfl⟩

theorem byte (b : Byte) : Statement (.byte b) := ⟨_, rfl⟩

theorem eos : Statement .eos := ⟨_, rfl⟩

theorem csumSum (data : List Byte) : Statement (.csumSum data) := rfl

theorem csumFold (sum : Nat) : Statement (.csumFold sum) := rfl

theorem csumCompute (data : List Byte) : Statement (.csumCompute data) := rfl

theorem csumCover (header : HeaderBytes) (body : List Byte) : Statement (.csumCover header body) := rfl

theorem csumVerify (header : HeaderBytes) (body : List Byte) (claimed : Word16) :
    Statement (.csumVerify header body claimed) := rfl

theorem csumAbsorb (acc : Word32) (ph : BitVec 1) (a : Byte) : Statement (.csumAbsorb acc ph a) := rfl

theorem hdrParse (header : HeaderBytes) : Statement (.hdrParse header) := rfl

theorem hdrLen (header : HeaderBytes) : Statement (.hdrLen header) := rfl

theorem hdrSens (header : HeaderBytes) : Statement (.hdrSens header) := rfl

theorem hdrClaimed (header : HeaderBytes) : Statement (.hdrClaimed header) := rfl

end Sys2Proof.Laws.WireFormat
end

