-- ==== Sys2Proof/Laws/Step.lean ====
section
/-! SUPPORT. What a step, a run and a header class run as one instruction can do. -/

namespace Sys2Proof.Machine

/-! ### The step and the run -/

/-- With no beat accepted, the step is the state after the edge (R73). -/
theorem step_of_noBeat {s t : State} (h : fetch s = .noBeat t) : step s = .next t := by simp [step, h]

/-- With an instruction fetched, the step is its meaning (R151). -/
theorem step_of_run {s t : State} {i : Instr} (h : fetch s = .run i t) : step s = exec i t := by simp [step, h]

/-- The run of no step. -/
@[simp] theorem run_zero (s : State) : Sys2Proof.core.run 0 s = .next s := rfl

/-- The run of one step more, of any machine of the host's interface. -/
theorem host_run_succ (M : Host.Core) (n : Nat) (s : M.State) :
    M.run (n + 1) s =
      match M.step s with
      | .next t => M.run n t
      | .fault r => .fault r
      | .refused r => .refused r := by
  cases first : M.step s <;> simp only [Host.Core.run, first]

/-- A run whose first step goes on. -/
theorem run_succ_of_next {s t : State} (n : Nat) (h : step s = .next t) :
    Sys2Proof.core.run (n + 1) s = Sys2Proof.core.run n t := by
  have first : Sys2Proof.core.step s = .next t := h
  exact (host_run_succ Sys2Proof.core n s).trans (by rw [first])

/-- A run whose first step stops with a fault. -/
theorem run_succ_of_fault {s : State} {r : Fault} (n : Nat) (h : step s = .fault r) :
    Sys2Proof.core.run (n + 1) s = .fault r := by
  have first : Sys2Proof.core.step s = .fault r := h
  exact (host_run_succ Sys2Proof.core n s).trans (by rw [first])

/-- A run whose first step is refused. -/
theorem run_succ_of_refused {s : State} {r : Refusal} (n : Nat) (h : step s = .refused r) :
    Sys2Proof.core.run (n + 1) s = .refused r := by
  have first : Sys2Proof.core.step s = .refused r := h
  exact (host_run_succ Sys2Proof.core n s).trans (by rw [first])

/-- A run in two parts, when the first part goes on. -/
theorem run_add_of_next {s t : State} (m n : Nat) (h : Sys2Proof.core.run m s = .next t) :
    Sys2Proof.core.run (m + n) s = Sys2Proof.core.run n t := by
  induction m generalizing s with
  | zero =>
    cases h
    rw [Nat.zero_add]
  | succ m ih =>
    have arith : m + 1 + n = (m + n) + 1 := by omega
    rw [arith]
    cases hs : step s with
    | next u =>
      rw [run_succ_of_next _ hs] at h ⊢
      exact ih h
    | fault r =>
      rw [run_succ_of_fault _ hs] at h
      cases h
    | refused r =>
      rw [run_succ_of_refused _ hs] at h
      cases h

/-! ### The fetch by grain -/

/-- In the beat grain, and away from a frame boundary in either, the next edge is fetched. -/
theorem fetch_eq_fetchEdge (s : State) (h : s.grain = .beat ∨ s.atBoundary = false) : fetch s = fetchEdge s := by
  unfold fetch
  rcases h with h | h
  · rw [h]
  · cases s.grain with
    | beat => rfl
    | frame => simp [fetchHeader, h]

/-- Eight byte beats are taken whole as a header. -/
@[simp] theorem takeBytes_toList (h : HeaderBytes) (rest : List Edge) :
    takeBytes 8 (h.toList.map byteEdge ++ rest) = (h.toList, rest) := takeBytes_exact h.toList rest

/-- In the frame grain, at a frame boundary, eight bytes on offer are fetched as a header. -/
theorem fetch_header (s : State) (h : HeaderBytes) (rest : List Edge) (hg : s.grain = .frame) (hb : s.atBoundary = true)
    (hin : s.input = h.toList.map byteEdge ++ rest) :
    fetch s = .run (decodeHeader (packHeader h)) (s.withInput rest) := by
  simp only [fetch, hg, fetchHeader, hb, hin, Config.hdrLen, takeBytes_toList, if_true]
  rfl

/-- An edge with a reset or an `EOS` is fetched as an edge in either grain (R230, R157). -/
theorem fetch_of_stop (s : State) (e : Edge) (rest : List Edge) (hin : s.input = e :: rest)
    (hs : e.rst = true ∨ e.valid = true ∧ e.eos = true) : fetch s = fetchEdge s := by
  unfold fetch
  cases s.grain with
  | beat => rfl
  | frame =>
    have taken : (takeBytes 8 s.input).1 = [] := by
      rw [hin]
      rcases hs with h | ⟨hv, he⟩
      · simp [takeBytes, h]
      · simp [takeBytes, hv, he]
    have none_fetched : fetchHeader s = none := by
      unfold fetchHeader
      split
      · simp only [Config.hdrLen, taken, decodeBytes]
      · rfl
    simp [none_fetched]

/-! ### Several beats -/

/-- Beats in two parts, when the first part goes on. -/
theorem deliverBytes_append {s t : State} (x y : List Byte) (h : deliverBytes x s = .next t) :
    deliverBytes (x ++ y) s = deliverBytes y t := by
  induction x generalizing s with
  | nil =>
    cases h
    rfl
  | cons b x ih =>
    simp only [deliverBytes, List.cons_append] at h ⊢
    cases hs : byteBeat b s with
    | next u =>
      simp only [hs] at h ⊢
      exact ih h
    | fault r => simp [hs] at h
    | refused r => simp [hs] at h

/-- In `CLOSED` no beat of a header is accepted (R156). -/
theorem deliverBytes_closed (h : HeaderBytes) (s : State) (hs : s.st = .closed) :
    deliverBytes h.toList s = .fault .beatNotAccepted := by
  simp [HeaderBytes.toList, deliverBytes, byteBeat, hs]

/-- Outside `CLOSED` a `BYTE` beat goes on, stays outside `CLOSED`, and neither reads nor changes the input or the grain. -/
theorem byteBeat_of_open {b : Byte} {s : State} (h : s.st ≠ .closed) :
    ∃ t, byteBeat b s = .next t ∧ t.st ≠ .closed ∧ t.grain = s.grain ∧ t.input = s.input ∧
      ∀ es, byteBeat b (s.withInput es) = .next (t.withInput es) := by
  cases hs : s.st with
  | closed => exact absurd hs h
  | hdr =>
    by_cases hi : s.idx.toNat < 7
    · refine ⟨latchHeaderByte b s, by simp [byteBeat, hs, hi], by simp [latchHeaderByte, hs], by simp [latchHeaderByte],
        by simp [latchHeaderByte], ?_⟩
      intro es
      simp [byteBeat, hs, hi]
      rfl
    · have moves : ∀ es, completeHeader b (s.withInput es) = (completeHeader b s).withInput es := by
        intro es
        simp only [completeHeader, apply_ite (fun t : State => t.withInput es)]
        rfl
      refine ⟨completeHeader b s, by simp [byteBeat, hs, hi], ?_, ?_, ?_, fun es => by simp [byteBeat, hs, hi, moves]⟩ <;>
      · simp only [completeHeader]
        split
        · simp
        · split <;> simp
  | body =>
    have moves : ∀ es, bodyByte b (s.withInput es) = (bodyByte b s).withInput es := by
      intro es
      simp only [bodyByte, apply_ite (fun t : State => t.withInput es)]
      rfl
    refine ⟨bodyByte b s, by simp [byteBeat, hs], ?_, ?_, ?_, fun es => by simp [byteBeat, hs, moves]⟩ <;>
    · simp only [bodyByte]
      split <;> simp [hs]
  | skip =>
    have moves : ∀ es, skipByte (s.withInput es) = (skipByte s).withInput es := by
      intro es
      simp only [skipByte, apply_ite (fun t : State => t.withInput es)]
      rfl
    refine ⟨skipByte s, by simp [byteBeat, hs], ?_, ?_, ?_, fun es => by simp [byteBeat, hs, moves]⟩ <;>
    · simp only [skipByte]
      split <;> simp [hs]

/-- The pin sample that offers a byte decodes to `BYTE` (R72). -/
@[simp] theorem decode_byteEdge (b : Byte) : decode (.b9 (byteEdge b).beat) = .byte b := by
  show decodeBeat (BitVec.ofBool false ++ b) = _
  revert b
  decide

/-- In the beat grain, outside `CLOSED`, a byte on offer is one beat (R151). -/
theorem step_byteEdge (s : State) (b : Byte) (rest : List Edge) (hg : s.grain = .beat) (ho : s.st ≠ .closed) :
    step (s.withInput (byteEdge b :: rest)) = byteBeat b (s.withInput rest) := by
  have fetched : fetch (s.withInput (byteEdge b :: rest)) = .run (.byte b) (s.withInput rest) := by
    have hg' : (s.withInput (byteEdge b :: rest)).grain = .beat := hg
    rw [fetch_eq_fetchEdge _ (.inl hg')]
    simp only [fetchEdge, State.withInput_input, State.inReady, State.withInput_st, decode_byteEdge]
    simp [byteEdge, ho]
    rfl
  rw [step_of_run fetched]
  rfl

/-- In the beat grain, outside `CLOSED`, a run over bytes on offer is their beats in order (R46, R48). -/
theorem run_byteEdges (bytes : List Byte) (s : State) (rest : List Edge) (hg : s.grain = .beat) (ho : s.st ≠ .closed) :
    Sys2Proof.core.run bytes.length (s.withInput (bytes.map byteEdge ++ rest)) = deliverBytes bytes (s.withInput rest) := by
  induction bytes generalizing s with
  | nil => rfl
  | cons b bytes ih =>
    obtain ⟨t, _, open_after, grain_after, _, moves⟩ := byteBeat_of_open (b := b) ho
    have first := step_byteEdge s b (bytes.map byteEdge ++ rest) hg ho
    rw [moves] at first
    rw [List.length_cons, List.map_cons, List.cons_append, run_succ_of_next _ first, ih t (grain_after.trans hg) open_after]
    simp only [deliverBytes, moves]
    rfl

/-- Outside `CLOSED`, in either grain, an `EOS` on offer closes the stream (R157). -/
theorem step_eosEdge (s : State) (rest : List Edge) (ho : s.st ≠ .closed) :
    step (s.withInput (eosEdge :: rest)) =
      .next (((s.withInput rest).emit (closedEvent (truncFlag s.st s.idx))).close) := by
  have fetched : fetch (s.withInput (eosEdge :: rest)) = .run .eos (s.withInput rest) := by
    rw [fetch_of_stop _ eosEdge rest rfl (.inr ⟨rfl, rfl⟩)]
    have : decode (.b9 eosEdge.beat) = .eos := by decide
    simp only [fetchEdge, State.withInput_input, this, State.inReady, State.withInput_st]
    simp [eosEdge, ho]
    rfl
  rw [step_of_run fetched]
  show execEos _ = _
  rcases execEos_cases (s.withInput rest) with ⟨_, e⟩ | ⟨closed, _⟩
  · exact e
  · exact absurd closed ho

/-! ### A frame boundary -/

/-- The registers at a frame boundary (R33). -/
theorem atBoundary_iff (s : State) :
    s.atBoundary = true ↔ s.st = .hdr ∧ s.idx = 0 ∧ s.rem = 0 ∧ s.acc = 0 ∧ s.ph = 0 ∧ s.rsn = 0 := by
  simp [State.atBoundary, and_assoc]

/-- `CLOSED` is no frame boundary. -/
theorem atBoundary_of_closed (s : State) (hs : s.st = .closed) : s.atBoundary = false := by
  simp [State.atBoundary, hs]

/-! ### A header class as one instruction -/

/-- Whatever its class, a header's meaning is the frame run with the code of its parse and the event of its verdict
(R159, R161 to R167). -/
theorem exec_decodeHeader (h : HeaderBytes) (s : State) :
    exec (decodeHeader (packHeader h)) s = runFrame h (parseCode (hdrParse h)) (verdict h) s := by
  have bits : ∀ o : Byte, (0#1 ++ o.extractLsb' 6 1 ++ o.extractLsb' 0 6 = o ∨ o &&& 0x80#8 ≠ 0#8) ∧
      (1#1 ++ o.extractLsb' 0 7 = o ∨ o &&& 0x80#8 = 0#8) := by decide
  have back : unpackHeader (headerWord ((packHeader h).extractLsb' 56 8) ((packHeader h).extractLsb' 48 8)
      ((packHeader h).extractLsb' 32 16) ((packHeader h).extractLsb' 0 32)) = h := by
    rw [headerWord_parts, unpackHeader_packHeader]
  have halves := tail_halves ((packHeader h).extractLsb' 0 32)
  have b0 : (packHeader h).extractLsb' 56 8 = h.b0 := congrArg HeaderBytes.b0 (unpackHeader_packHeader h)
  have b1 : (packHeader h).extractLsb' 48 8 = h.b1 := congrArg HeaderBytes.b1 (unpackHeader_packHeader h)
  have b45 : (packHeader h).extractLsb' 16 16 = hdrClaimed h := packHeader_checksum h
  have b23 : (packHeader h).extractLsb' 32 16 = hdrLen h := packHeader_length h
  have parts : ((packHeader h).extractLsb' 0 32).extractLsb' 16 16 = (packHeader h).extractLsb' 16 16 ∧
      ((packHeader h).extractLsb' 0 32).extractLsb' 0 16 = (packHeader h).extractLsb' 0 16 ∧
      (packHeader h).extractLsb' 48 7 = ((packHeader h).extractLsb' 48 8).extractLsb' 0 7 ∧
      (packHeader h).extractLsb' 54 1 = ((packHeader h).extractLsb' 48 8).extractLsb' 6 1 ∧
      (packHeader h).extractLsb' 48 6 = ((packHeader h).extractLsb' 48 8).extractLsb' 0 6 := by
    refine ⟨?_, ?_, ?_, ?_, ?_⟩ <;>
    · apply BitVec.eq_of_getLsbD_eq
      intro i hi
      simp only [BitVec.getLsbD_extractLsb']
      interval_cases i <;> simp
  have tail0 : (packHeader h).extractLsb' 0 32 = h.b4 ++ h.b5 ++ h.b6 ++ h.b7 := by
    apply BitVec.eq_of_getLsbD_eq
    intro i hi
    simp only [packHeader, BitVec.getLsbD_append, BitVec.getLsbD_extractLsb']
    interval_cases i <;> simp
  have low0 : (packHeader h).extractLsb' 0 16 = h.b6 ++ h.b7 := by
    apply BitVec.eq_of_getLsbD_eq
    intro i hi
    simp only [packHeader, BitVec.getLsbD_append, BitVec.getLsbD_extractLsb']
    interval_cases i <;> simp
  rw [parts.1, parts.2.1] at halves
  rw [b0, b1] at back
  simp only [decodeHeader, classOf_packHeader]
  by_cases h0 : h.b0 = 0xCC#8
  · by_cases h1 : h.b1 = 0#8
    · by_cases ht : h.b4 = 0#8 ∧ h.b5 = 0#8 ∧ h.b6 = 0#8 ∧ h.b7 = 0#8
      · have hp : hdrParse h = .ok (hdrLen h) false := by rw [hdrParse_bytes]; simp [h0, h1, ht]
        have hw : unpackHeader (plainWord ((packHeader h).extractLsb' 32 16)) = h := by
          rw [tail0, h0, h1, ht.1, ht.2.1, ht.2.2.1, ht.2.2.2] at back
          exact back
        simp only [h0, h1, if_true, if_pos ht, exec, execFrmPlain, hw, hp, parseCode]
        congr 1
        funext body
        have hc : hdrClaimed h = 0 := by simp [hdrClaimed, ht, be16]
        simp [verdict, hp, hc, b23]
      · have hp : hdrParse h = .err .pad4 := by rw [hdrParse_bytes]; simp [h0, h1, ht]
        have hw : unpackHeader (pad4Word ((packHeader h).extractLsb' 32 16) ((packHeader h).extractLsb' 0 32)) = h := by
          rw [h0, h1] at back
          exact back
        simp only [h0, h1, if_true, if_neg ht, exec, execRejPad4, runRejected, hw, hp, parseCode]
        congr 1
        funext body
        simp [verdict, hp, b23]
    · by_cases h2 : h.b1 = 0x40#8
      · by_cases ht : h.b6 = 0#8 ∧ h.b7 = 0#8
        · have hp : hdrParse h = .ok (hdrLen h) true := by rw [hdrParse_bytes]; simp [h0, h2, ht]
          have hw : unpackHeader (sensWord ((packHeader h).extractLsb' 32 16) ((packHeader h).extractLsb' 16 16)) = h := by
            rw [h0, h2, ← halves, low0, ht.1, ht.2] at back
            exact back
          simp only [h0, h2, if_true, if_pos ht, exec, execFrmSens, hp, parseCode]
          rw [if_neg (by decide)]
          simp only [hw]
          congr 1
          funext body
          simp [verdict, hp, b23, b45, csumVerify]
        · have hp : hdrParse h = .err .pad2 := by rw [hdrParse_bytes]; simp [h0, h2, ht]
          have hw : unpackHeader (pad2Word ((packHeader h).extractLsb' 32 16) ((packHeader h).extractLsb' 16 16)
              ((packHeader h).extractLsb' 0 16)) = h := by
            rw [h0, h2, ← halves] at back
            exact back
          simp only [h0, h2, if_true, if_neg ht, exec, execRejPad2, runRejected, hp, parseCode]
          rw [if_neg (by decide)]
          simp only [hw]
          congr 1
          funext body
          simp [verdict, hp, b23]
      · by_cases e : h.b1 &&& 0x80#8 = 0#8
        · have hp : hdrParse h = .err .padbits := by rw [hdrParse_bytes]; simp [h0, h1, h2, e]
          have ho : 0#1 ++ h.b1.extractLsb' 6 1 ++ h.b1.extractLsb' 0 6 = h.b1 := by
            rcases (bits h.b1).1 with h | h
            · exact h
            · exact absurd e h
          have hw : unpackHeader (padbitsWord ((packHeader h).extractLsb' 54 1) ((packHeader h).extractLsb' 48 6)
              ((packHeader h).extractLsb' 32 16) ((packHeader h).extractLsb' 0 32)) = h := by
            rw [parts.2.2.2.1, parts.2.2.2.2, b1]
            rw [h0, ← ho] at back
            exact back
          simp only [h0, if_true, if_neg h1, if_neg h2, if_pos e, exec, execRejPadbits, runRejected, hw, hp, parseCode]
          congr 1
          funext body
          simp [verdict, hp, b23]
        · have hp : hdrParse h = .err .rsvd := by rw [hdrParse_bytes]; simp [h0, h1, h2, e]
          have ho : 1#1 ++ h.b1.extractLsb' 0 7 = h.b1 := by
            rcases (bits h.b1).2 with h | h
            · exact h
            · exact absurd h e
          have hw : unpackHeader (rsvdWord ((packHeader h).extractLsb' 48 7)
              ((packHeader h).extractLsb' 32 16) ((packHeader h).extractLsb' 0 32)) = h := by
            rw [parts.2.2.1, b1]
            rw [h0, ← ho] at back
            exact back
          simp only [h0, if_true, if_neg h1, if_neg h2, if_neg e, exec, execRejRsvd, runRejected, hw, hp, parseCode]
          congr 1
          funext body
          simp [verdict, hp, b23]
  · have hp : hdrParse h = .err .magic := by rw [hdrParse_bytes]; simp [h0]
    have hw : unpackHeader (magicWord ((packHeader h).extractLsb' 56 8) ((packHeader h).extractLsb' 48 8)
        ((packHeader h).extractLsb' 32 16) ((packHeader h).extractLsb' 0 32)) = h := by
      rw [magicWord, headerWord_parts, unpackHeader_packHeader]
    simp only [if_neg h0, exec, execRejMagic, runRejected, hw, hp, parseCode]
    congr 1
    funext body
    simp [verdict, hp, b23]

/-! ### All a step can do -/

/-- All a step that takes an edge can do; `other` makes room for what else a step can do. -/
theorem step_edge_cases (s : State) (other : Prop) (hf : fetch s = fetchEdge s) :
    (∃ es, step s = .next (s.withInput es).quiet) ∨
    (∃ es, step s = .next (s.withInput es).resetRegisters) ∨
    (s.st = .closed ∧ step s = .fault .beatNotAccepted) ∨
    (∃ es b, s.st ≠ .closed ∧ step s = byteBeat b (s.withInput es)) ∨
    (∃ es, s.st ≠ .closed ∧ step s = .next (((s.withInput es).emit (closedEvent (truncFlag s.st s.idx))).close)) ∨
    other := by
  rcases fetchEdge_cases s with ⟨hin, h⟩ | ⟨e, rest, hin, cases⟩
  · exact .inl ⟨[], by rw [step_of_noBeat (hf.trans h)]; simp only [State.withInput, ← hin]⟩
  · rcases cases with ⟨_, h⟩ | ⟨_, _, h⟩ | ⟨_, _, _, _, h⟩ | ⟨_, _, _, h⟩
    · exact .inr (.inl ⟨rest, step_of_noBeat (hf.trans h)⟩)
    · exact .inl ⟨rest, step_of_noBeat (hf.trans h)⟩
    · exact .inl ⟨rest, step_of_noBeat (hf.trans h)⟩
    · have hs := step_of_run (hf.trans h)
      rw [decodeBeat] at hs
      by_cases hc : s.st = .closed
      · refine .inr (.inr (.inl ⟨hc, ?_⟩))
        rw [hs]
        split
        · show execEos _ = _
          simp [execEos, hc]
        · show byteBeat _ _ = _
          simp [byteBeat, hc]
      · split at hs
        · refine .inr (.inr (.inr (.inr (.inl ⟨rest, hc, ?_⟩))))
          rw [hs]
          show execEos _ = _
          rcases execEos_cases (s.withInput rest) with ⟨_, e⟩ | ⟨closed, _⟩
          · exact e
          · exact absurd closed hc
        · exact .inr (.inr (.inr (.inl ⟨rest, _, hc, hs⟩)))

/-- All a step can do: a cycle without a beat, a reset, no step in `CLOSED`, one byte beat, the close, or in the frame grain
a header class at a frame boundary (R73, R151, R230). -/
theorem step_cases (s : State) :
    (∃ es, step s = .next (s.withInput es).quiet) ∨
    (∃ es, step s = .next (s.withInput es).resetRegisters) ∨
    (s.st = .closed ∧ step s = .fault .beatNotAccepted) ∨
    (∃ es b, s.st ≠ .closed ∧ step s = byteBeat b (s.withInput es)) ∨
    (∃ es, s.st ≠ .closed ∧ step s = .next (((s.withInput es).emit (closedEvent (truncFlag s.st s.idx))).close)) ∨
    (∃ es h, s.grain = .frame ∧ s.atBoundary = true ∧
      step s = runFrame h (parseCode (hdrParse h)) (verdict h) (s.withInput es)) := by
  have edge := step_edge_cases s (∃ es h, s.grain = .frame ∧ s.atBoundary = true ∧
    step s = runFrame h (parseCode (hdrParse h)) (verdict h) (s.withInput es))
  cases hg : s.grain with
  | beat => simpa [hg] using edge (fetch_eq_fetchEdge s (.inl hg))
  | frame =>
    cases hb : s.atBoundary with
    | false => simpa [hg, hb] using edge (fetch_eq_fetchEdge s (.inr hb))
    | true =>
      have short := takeBytes_length_le 8 s.input
      by_cases whole : ∃ h : HeaderBytes, (takeBytes 8 s.input).1 = h.toList
      · obtain ⟨h, whole⟩ := whole
        refine .inr (.inr (.inr (.inr (.inr ⟨(takeBytes 8 s.input).2, h, rfl, rfl, ?_⟩))))
        rw [← exec_decodeHeader]
        apply step_of_run
        simp only [fetch, hg, fetchHeader, hb, Config.hdrLen, whole, if_true]
        rfl
      · have none_fetched : fetchHeader s = none := by
          simp only [fetchHeader, hb, if_true, Config.hdrLen]
          split
          · rename_i i r decoded
            exfalso
            unfold decodeBytes at decoded
            split at decoded
            · rename_i b0 b1 b2 b3 b4 b5 b6 b7 more bytes
              rw [bytes] at short
              simp only [List.length_cons] at short
              have : more = [] := List.length_eq_zero_iff.1 (by omega)
              subst this
              exact whole ⟨⟨b0, b1, b2, b3, b4, b5, b6, b7⟩, bytes⟩
            · cases decoded
          · rfl
        have hf : fetch s = fetchEdge s := by simp [fetch, hg, none_fetched]
        simpa [hg, hb] using edge hf

end Sys2Proof.Machine
end

