-- ==== Sys2Proof/Tests/Slice0.lean ====
section
/-! SUPPORT. Tests. Expected values are the spec's own vectors (spec/95_test_vectors.md, cited as V2.1 and so on) or words
written out from the encodings of spec/30_encoding.md; and one witness for the hypotheses of every statement that has any. -/

namespace Sys2Proof.Tests

open Sys2Proof Sys2Proof.Machine

/-! ### Helpers -/

/-- The outcome is a next state that satisfies `p`. -/
def nextIs (o : Result) (p : State → Bool) : Bool :=
  match o with
  | .next s => p s
  | _ => false

/-- The outcome is the one fault. -/
def isFault (o : Result) : Bool :=
  match o with
  | .fault .beatNotAccepted => true
  | _ => false

/-- A state by the row the vectors print: `ST, IDX, REM, ACC, PH, RSN`, and the header latch. -/
def row (st : SeqState) (idx : BitVec 3) (rem : Word16) (acc : Word32) (ph : BitVec 1) (rsn : BitVec 3)
    (hdr : HeaderBytes := HeaderBytes.zero) : State :=
  { State.reset with st := st, idx := idx, rem := rem, acc := acc, ph := ph, rsn := rsn, hdr := hdr }

/-- The state agrees with a printed row. -/
def isRow (s : State) (st : SeqState) (idx : BitVec 3) (rem : Word16) (acc : Word32) (ph : BitVec 1) (rsn : BitVec 3) : Bool :=
  s.st == st && s.idx == idx && s.rem == rem && s.acc == acc && s.ph == ph && s.rsn == rsn

/-- The step emitted exactly this event. -/
def emitted (s : State) (e : Event) : Bool := s.evValid && s.ev == e && s.events == [e]

/-- The step emitted nothing. -/
def silent (s : State) : Bool := !s.evValid && s.ev == Event.zero && s.events == []

/-- An event with `claimed` and `calc` 0, as the vectors shorten it. -/
def bare (code : BitVec 3) (len : Word16) : Event := ⟨code, len, false, 0, 0, false⟩

/-- The body "hello". -/
def hello : List Byte := [0x68, 0x65, 0x6C, 0x6C, 0x6F]

/-- The header of V3.2: `CC 40 00 05 23 1B 00 00`. -/
def sensHello : HeaderBytes := ⟨0xCC, 0x40, 0x00, 0x05, 0x23, 0x1B, 0x00, 0x00⟩

/-- The header of V1.1: `CC 00 00 05 00 00 00 00`. -/
def plainHello : HeaderBytes := ⟨0xCC, 0x00, 0x00, 0x05, 0x00, 0x00, 0x00, 0x00⟩

/-- The header of V1.2: `CC 80 00 05 00 00 00 00`. -/
def rsvdHello : HeaderBytes := ⟨0xCC, 0x80, 0x00, 0x05, 0x00, 0x00, 0x00, 0x00⟩

/-! ### WellFormed: each check refuses an ill-formed term (R68) -/

theorem test_wellFormed_pad4 : (Instr.rejPad4 5 0).wellFormed = false ∧ (Instr.rejPad4 5 1).wellFormed = true := by decide

theorem test_wellFormed_pad2 : (Instr.rejPad2 5 0x231B 0).wellFormed = false ∧
    (Instr.rejPad2 5 0x231B 0x8000).wellFormed = true := by decide

theorem test_wellFormed_padbits : (Instr.rejPadbits 1 0 5 0).wellFormed = false ∧
    (Instr.rejPadbits 1 0x20 5 0).wellFormed = true := by decide

theorem test_wellFormed_magic : (Instr.rejMagic 0xCC 0 5 0).wellFormed = false ∧
    (Instr.rejMagic 0xCB 0 5 0).wellFormed = true := by decide

/-! ### Decoding: every constructor's word, written out from R61, R68 and R72 -/

theorem test_decode_frmPlain : decodeTableWord 64 0xCC00000500000000 = some (.frmPlain 5) := by decide

theorem test_decode_frmPlain_longest : decodeTableWord 64 0xCC00FFFF00000000 = some (.frmPlain 0xFFFF) := by decide

theorem test_decode_frmSens : decodeTableWord 64 0xCC400005231B0000 = some (.frmSens 5 0x231B) := by decide

theorem test_decode_rejRsvd : decodeTableWord 64 0xCCFF1234FFFFFFFF = some (.rejRsvd 0x7F 0x1234 0xFFFFFFFF) := by decide

theorem test_decode_rejRsvd_first : decodeTableWord 64 0xCC81000000000001 = some (.rejRsvd 1 0 1) := by decide

theorem test_decode_rejPad4 : decodeTableWord 64 0xCC000005231B0000 = some (.rejPad4 5 0x231B0000) := by decide

theorem test_decode_rejPad4_last : decodeTableWord 64 0xCC00000100000001 = some (.rejPad4 1 1) := by decide

theorem test_decode_rejPad2 : decodeTableWord 64 0xCC401234FFFF0001 = some (.rejPad2 0x1234 0xFFFF 1) := by decide

theorem test_decode_rejPadbits : decodeTableWord 64 0xCC41000000000001 = some (.rejPadbits 1 1 0 1) := by decide

theorem test_decode_rejPadbits_top : decodeTableWord 64 0xCC20000000000000 = some (.rejPadbits 0 0x20 0 0) := by decide

theorem test_decode_rejMagic : decodeTableWord 64 0x00FF0000FFFFFFFF = some (.rejMagic 0 0xFF 0 0xFFFFFFFF) := by decide

theorem test_decode_byte : decodeTableWord 9 0b011001100 = some (.byte 0xCC) ∧
    decodeTableWord 16 0x00CC = some (.byte 0xCC) := by decide

theorem test_decode_eos : decodeTableWord 9 0b100000000 = some .eos ∧ decodeTableWord 16 0x01CC = some .eos := by decide

/-- No row has such a word: fewer bits than a beat, bits beyond the nine, a size between the formats. -/
theorem test_decode_none : decodeTableWord 8 0xCC = none ∧ decodeTableWord 16 0x0200 = none ∧
    decodeTableWord 32 0xCC000005 = none := by decide

/-- The encoder writes the bytes of R125 and R78 (V1.1, V3.2). -/
theorem test_encode : encode (.frmPlain 5) = some (.h64 0xCC00000500000000) ∧
    encode (.frmSens 5 0x231B) = some (.h64 0xCC400005231B0000) ∧ encode (.byte 0xCC) = some (.b9 0x0CC) ∧
    encode .eos = some (.b9 0x100) ∧ encode (.csumSum []) = none := by decide

/-- Stored bytes decode in wire order, and seven are refused by name (R10, R46). -/
theorem test_decodeBytes :
    decodeBytes [0xCC, 0x40, 0x00, 0x05, 0x23, 0x1B, 0x00, 0x00, 0x68] = .ok (.frmSens 5 0x231B, [0x68]) ∧
    decodeBytes [0xCC, 0x40, 0x00, 0x05, 0x23, 0x1B, 0x00] = .error (.truncatedHeader 7) := by
  constructor <;> rfl

/-- Rows of the exact patterns as the opcode table lists them (R70): `REJ.MAGIC` first and last, `REJ.PADBITS` first. -/
theorem test_exactPatterns :
    (exactPatterns .rejMagic).head? = some ⟨0x8000000000000000, 0x0000000000000000⟩ ∧
    (exactPatterns .rejMagic).getLast? = some ⟨0xFF00000000000000, 0xCD00000000000000⟩ ∧
    (exactPatterns .rejPadbits).head? = some ⟨0xFFA0000000000000, 0xCC20000000000000⟩ ∧
    (HeaderClass.rejPad4 |> exactPatterns).length = 32 ∧ (exactPatterns .rejPad2).length = 16 := by decide

/-- An instruction's word offered to the next step is run by it: V5.1 and V1.2, from reset. -/
theorem test_withFetchWord_byte : nextIs (step (State.reset.withFetchWord 16 0x00CC))
    (fun s => isRow s .hdr 1 0 0xCC00 1 0 && s.hdr.b0 == 0xCC && silent s) = true := by decide

theorem test_withFetchWord_header : nextIs (step (State.reset.withFetchWord 64 0xCC80000000000000))
    (fun s => s.atBoundary && emitted s (bare 2 0) && s.input == []) = true := by decide

/-! ### The checksum unit -/

/-- V2.1: `68 65 6C 6C 6F` and `AB CD EF`. -/
theorem test_csumSum : nextIs (exec (.csumSum hello) State.reset) (fun s => s.result == .sum 0x143D1) = true ∧
    nextIs (exec (.csumSum [0xAB, 0xCD, 0xEF]) State.reset) (fun s => s.result == .sum 0x19ACD) = true := by decide

/-- V2.2: two passes needed. -/
theorem test_csumFold : nextIs (exec (.csumFold 0x1FFFF) State.reset) (fun s => s.result == .word 1) = true ∧
    nextIs (exec (.csumFold 0x2DCE2) State.reset) (fun s => s.result == .word 0xDCE4) = true := by decide

/-- V2.1: the empty sequence and `FF FF 00 01`. -/
theorem test_csumCompute : nextIs (exec (.csumCompute []) State.reset) (fun s => s.result == .word 0xFFFF) = true ∧
    nextIs (exec (.csumCompute [0xFF, 0xFF, 0x00, 0x01]) State.reset) (fun s => s.result == .word 0xFFFE) = true := by decide

/-- V2.3: any eight bytes, no body. -/
theorem test_csumCover : nextIs (exec (.csumCover ⟨1, 2, 3, 4, 5, 6, 7, 8⟩ []) State.reset)
    (fun s => s.result == .bytes [1, 2, 3, 4, 0xCC, 0xCC, 7, 8]) = true := by decide

/-- V3.4: the right and a wrong claimed checksum. -/
theorem test_csumVerify : nextIs (exec (.csumVerify sensHello hello 0x231B) State.reset) (fun s => s.result == .flag true) = true ∧
    nextIs (exec (.csumVerify sensHello hello 0x231A) State.reset) (fun s => s.result == .flag false) = true := by decide

/-- V2.4: a high byte and a low byte. -/
theorem test_csumAbsorb : nextIs (exec (.csumAbsorb 0xCC45 0 0xCC) State.reset) (fun s => s.result == .absorbed 0x19845 1) = true ∧
    nextIs (exec (.csumAbsorb 0x19845 1 0xCC) State.reset) (fun s => s.result == .absorbed 0x19911 0) = true := by decide

/-! ### The header unit (V4.1) -/

theorem test_hdrParse : nextIs (exec (.hdrParse sensHello) State.reset) (fun s => s.result == .parsed (.ok 5 true)) = true ∧
    nextIs (exec (.hdrParse ⟨0xCC, 0x81, 0, 0, 0, 0, 0, 1⟩) State.reset) (fun s => s.result == .parsed (.err .rsvd)) = true := by
  decide

theorem test_hdrParse_order : hdrParse ⟨0, 0xFF, 0, 0, 0xFF, 0xFF, 0xFF, 0xFF⟩ = .err .magic ∧
    hdrParse ⟨0xCC, 0x41, 0, 0, 0, 0, 0, 1⟩ = .err .padbits ∧ hdrParse ⟨0xCC, 0, 0, 5, 0x23, 0x1B, 0, 0⟩ = .err .pad4 ∧
    hdrParse ⟨0xCC, 0x40, 0, 0, 0x66, 0xF2, 1, 0⟩ = .err .pad2 := by decide

theorem test_hdrLen : nextIs (exec (.hdrLen ⟨0xCC, 0, 0xAB, 0xCD, 0xFF, 0xFF, 0xFF, 0xFF⟩) State.reset)
    (fun s => s.result == .word 0xABCD) = true := by decide

theorem test_hdrSens : nextIs (exec (.hdrSens ⟨0, 0xFF, 0, 0, 0, 0, 0, 0⟩) State.reset) (fun s => s.result == .flag true) = true ∧
    nextIs (exec (.hdrSens rsvdHello) State.reset) (fun s => s.result == .flag false) = true := by decide

theorem test_hdrClaimed : nextIs (exec (.hdrClaimed sensHello) State.reset) (fun s => s.result == .word 0x231B) = true := by decide

/-! ### The two beats -/

/-- V5.2: latched as received, summed as `CC`. -/
theorem test_byte_latch : nextIs (exec (.byte 0x23) (row .hdr 4 0 0xCC45 0 0 ⟨0xCC, 0x40, 0, 5, 0, 0, 0, 0⟩))
    (fun s => isRow s .hdr 5 0 0x19845 1 0 && s.hdr.b4 == 0x23 && silent s) = true := by decide

/-- V5.5: a rejected header with a body. -/
theorem test_byte_takes_reject : nextIs (exec (.byte 0) (row .hdr 7 0 0x19951 1 0 rsvdHello))
    (fun s => isRow s .skip 0 5 0x19951 0 2 && silent s) = true := by decide

/-- V5.7: an accepted header without a body. -/
theorem test_byte_empty_frame : nextIs (exec (.byte 0) (row .hdr 7 0 0x1990C 1 0 ⟨0xCC, 0x40, 0, 0, 0x66, 0xF2, 0, 0⟩))
    (fun s => isRow s .hdr 0 0 0 0 0 && emitted s ⟨0, 0, true, 0x66F2, 0x66F2, false⟩) = true := by decide

/-- V5.12: the last body byte, with a wrong checksum. -/
theorem test_byte_ends_frame : nextIs (exec (.byte 0x6E) (row .body 0 1 0x26DE2 0 0 sensHello))
    (fun s => isRow s .hdr 0 0 0 0 0 && emitted s ⟨6, 5, true, 0x231B, 0x241B, false⟩) = true := by decide

/-- V5.14 and V5.15: a skipped body. -/
theorem test_byte_skip : nextIs (exec (.byte 0xCC) (row .skip 0 5 0x19951 0 2 rsvdHello))
      (fun s => isRow s .skip 0 4 0x19951 0 2 && silent s) = true ∧
    nextIs (exec (.byte 0x6F) (row .skip 0 1 0x19951 0 2 rsvdHello))
      (fun s => isRow s .hdr 0 0 0 0 0 && emitted s (bare 2 5)) = true := by decide

/-- V5.16 and V5.18: the close at a frame boundary and inside a frame. -/
theorem test_eos : nextIs (exec .eos State.reset) (fun s => isRow s .closed 0 0 0 0 0 && emitted s (bare 7 0)) = true ∧
    nextIs (exec .eos (row .body 0 2 0x26D36 1 0 plainHello))
      (fun s => isRow s .closed 0 0 0 0 0 && s.hdr == HeaderBytes.zero && emitted s ⟨7, 0, false, 0, 0, true⟩) = true := by
  decide

/-- V5.20. -/
theorem test_closed : isFault (exec (.byte 0xCC) (row .closed 0 0 0 0 0)) = true ∧
    isFault (exec .eos (row .closed 0 0 0 0 0)) = true := by decide

/-! ### The header classes -/

/-- V1.1: the whole frame as one instruction. -/
theorem test_frmPlain : nextIs (exec (.frmPlain 5) (State.reset.withInput (hello.map byteEdge)))
    (fun s => s.atBoundary && s.hdr == plainHello && emitted s ⟨0, 5, false, 0, 0x235B, false⟩) = true := by decide

/-- V1.3: the wrong and the right checksum. -/
theorem test_frmSens : nextIs (exec (.frmSens 5 0) (State.reset.withInput (hello.map byteEdge)))
      (fun s => s.atBoundary && emitted s ⟨6, 5, true, 0, 0x231B, false⟩) = true ∧
    nextIs (exec (.frmSens 5 0x231B) (State.reset.withInput (hello.map byteEdge)))
      (fun s => s.atBoundary && emitted s ⟨0, 5, true, 0x231B, 0x231B, false⟩) = true := by decide

/-- V1.2: the body is skipped and the next byte left alone. -/
theorem test_rejRsvd : nextIs (exec (.rejRsvd 0 5 0) (State.reset.withInput ((hello ++ [0xCC]).map byteEdge)))
    (fun s => s.atBoundary && emitted s (bare 2 5) && s.input == [byteEdge 0xCC]) = true := by decide

/-- P4, rows 12 to 19: a length taken from a wrong header, the body not yet delivered. -/
theorem test_rejMagic : nextIs (exec (.rejMagic 0x6C 0x6F 0xCC00 0x00020000) State.reset)
    (fun s => isRow s .skip 0 0xCC00 0x2053B 0 1 && silent s) = true := by decide

/-- P5: a rejection of length 0 is reported at once. -/
theorem test_rejPadbits : nextIs (exec (.rejPadbits 0 1 0 0) State.reset)
    (fun s => s.atBoundary && emitted s (bare 3 0)) = true := by decide

/-- V4.1, `CC 00 00 01 00 00 00 01`, with an idle cycle before its body byte. -/
theorem test_rejPad4 : nextIs (exec (.rejPad4 1 1) (State.reset.withInput [idleEdge, byteEdge 0xCC]))
    (fun s => s.atBoundary && emitted s (bare 4 1) && s.input == []) = true := by decide

/-- V5.8, as one instruction: `CC 40 00 00 66 F2 00 01`. -/
theorem test_rejPad2 : nextIs (exec (.rejPad2 0 0x66F2 1) State.reset)
    (fun s => s.atBoundary && emitted s (bare 5 0)) = true := by decide

/-! ### Steps -/

/-- V5.21: reset over a beat in the middle of a body. -/
theorem test_reset_edge : nextIs (step ((row .body 0 3 0x20136 0 0 plainHello).withInput [⟨true, true, false, 0x6C⟩]))
    (fun s => isRow s .hdr 0 0 0 0 0 && s.hdr == HeaderBytes.zero && silent s && s.inReady) = true := by decide

/-- P6, step 17: a byte offered to a closed block before a reset changes nothing. -/
theorem test_closed_waits : nextIs (step ((row .closed 0 0 0 0 0).withInput [byteEdge 0xCC, rstEdge]))
    (fun s => isRow s .closed 0 0 0 0 0 && silent s && s.input == [rstEdge]) = true := by decide

/-! ### Witnesses: states and operands that meet the hypotheses of the statements, at the boundaries of their clauses -/

/-- A frame boundary with the header of an earlier frame still latched. -/
def boundary : State := row .hdr 0 0 0 0 0 sensHello

/-- After `CC 00 00 02 00 00 00 00` (P2, beat 21). -/
def inBody : State := row .body 0 2 0x198CE 0 0 ⟨0xCC, 0, 0, 2, 0, 0, 0, 0⟩

theorem witness_CsumFoldRunsPassesUntilNoCarry :
    (65535 < 65536) ∧ (65536 ≤ 65536) ∧ (2 ^ 32 - 1 < 2 ^ 32) := by decide

theorem witness_CsumComputeDeliversComplementOfFold :
    ([0xFF, 0xFF] : List Byte).length % 2 = 0 ∧ 0 < csumSum [0xFF, 0xFF] ∧ csumSum [0xFF, 0xFF] % 65535 = 0 ∧
    (∀ b ∈ ([0, 0] : List Byte), b = 0) := by decide

theorem witness_AbsorbingAllBytesGivesTheSum : csumSum hello < 2 ^ 32 := by decide

theorem witness_SumNeverLeavesTheAccumulator_first : (List.replicate 131074 (0xFF : Byte)).length ≤ 131074 := by
  rw [List.length_replicate]

theorem witness_SumNeverLeavesTheAccumulator_second :
    hdrParse ⟨0xCC, 0x40, 0xFF, 0xFF, 0x67, 0xF1, 0, 0⟩ = .ok 0xFFFF true ∧
    (List.replicate 65535 (0xFF : Byte)).length ≤ (0xFFFF : Word16).toNat :=
  ⟨by decide, by rw [List.length_replicate]; decide⟩

theorem witness_SumSplitsAtEvenOffset : ([0x12, 0x34] : List Byte).length % 2 = 0 := by decide

theorem witness_WordOrderDoesNotMatter : List.Perm ([0x1234, 0x5678] : List Word16) [0x5678, 0x1234] := by decide

theorem witness_ChecksumAppendedGivesZero : ([0x12, 0x34, 0x56, 0x78] : List Byte).length % 2 = 0 := by decide

theorem witness_SingleBitFlipIsDetected :
    7 < 8 ∧ (3 : BitVec 3) ≠ 4 ∧ (3 : BitVec 3) ≠ 5 ∧ (6 : BitVec 3) ≠ 4 ∧ (6 : BitVec 3) ≠ 5 ∧ 4 < hello.length := by decide

theorem witness_FunctionalUnitsArePure : (Instr.hdrClaimed sensHello).format = .func := by decide

theorem witness_AcceptedHeadersHaveTwoShapes : hdrParse sensHello = .ok 5 true ∧ hdrParse plainHello = .ok 5 false := by decide

theorem witness_DecodeOfEncodeIsTheInstruction :
    (Instr.rejPadbits 1 0x20 5 0).wellFormed = true ∧
    encode (.rejPadbits 1 0x20 5 0) = some (.h64 0xCC60000500000000) := by decide

theorem witness_ByteLatchesHeaderByte : (row .hdr 6 0 0x19911 0 0 sensHello).st = .hdr ∧
    (row .hdr 6 0 0x19911 0 0 sensHello).idx.toNat < 7 := by decide

/-- The three cases: no body, an accepted header with one, a rejected header with one. -/
theorem witness_ByteCompletesHeader :
    (row .hdr 7 0 0 1 0 ⟨0xCC, 0, 0, 0, 0, 0, 0, 0⟩).idx = 7 ∧ hdrLen ⟨0xCC, 0, 0, 0, 0, 0, 0, 0⟩ = 0 ∧
    hdrLen plainHello ≠ 0 ∧ hdrParse plainHello = .ok 5 false ∧
    hdrLen rsvdHello ≠ 0 ∧ hdrParse rsvdHello = .err .rsvd := by decide

/-- The last body byte and the one before it. -/
theorem witness_BodyByteIsSummed : (row .body 0 1 0x26DE2 0 0 sensHello).st = .body ∧
    (row .body 0 1 0x26DE2 0 0 sensHello).rem = 1 ∧ inBody.st = .body ∧ inBody.rem ≠ 1 := by decide

theorem witness_SkipByteIsIgnored : (row .skip 0 1 0x19951 0 2 rsvdHello).st = .skip ∧
    (row .skip 0 1 0x19951 0 2 rsvdHello).rem = 1 ∧ (row .skip 0 2 0x19951 0 2 rsvdHello).rem ≠ 1 := by decide

/-- The three accepted cases with `c` computed from the accumulator, and a rejected one. -/
theorem witness_FrameEventFields :
    (5 : BitVec 3) ≠ 0 ∧ hdrSens sensHello = true ∧ ~~~csumFold 0x2DCE2 = hdrClaimed sensHello ∧
    ~~~csumFold 0x2DBE2 ≠ hdrClaimed sensHello ∧ hdrSens plainHello = false := by decide

theorem witness_EosClosesTheStream : boundary.st ≠ .closed ∧ (row .hdr 7 0 0 1 0).st ≠ .closed ∧ inBody.st ≠ .closed := by
  decide

theorem witness_ClosedAcceptsNothing : (Instr.eos).format ≠ .func ∧ (Instr.frmPlain 5).format ≠ .func ∧
    (row .closed 0 0 0 0 0).st = .closed := by decide

theorem witness_ByteEventMarksAFrameBoundary :
    ∃ t, exec (.byte 0x6F) (row .skip 0 1 0x19951 0 2 rsvdHello) = .next t ∧
      t.events ≠ (row .skip 0 1 0x19951 0 2 rsvdHello).events :=
  ⟨_, rfl, by decide⟩

theorem witness_SkipReturnsAfterRemBytes : (row .skip 0 1 0x19951 0 2 rsvdHello).st = .skip ∧
    (row .skip 0 1 0x19951 0 2 rsvdHello).grain = .beat ∧ (row .skip 0 1 0x19951 0 2 rsvdHello).rsn ≠ 0 ∧
    ([0xCC] : List Byte) ≠ [] ∧ ([0xCC] : List Byte).length = (row .skip 0 1 0x19951 0 2 rsvdHello).rem.toNat := by decide

theorem witness_FrmPlainForwards : boundary.atBoundary = true ∧ hello.length = (5 : Word16).toNat := by decide

theorem witness_FrmSensVerifies : boundary.atBoundary = true ∧ ([] : List Byte).length = (0 : Word16).toNat := by decide

theorem witness_RejectedFramesAreSkipped : State.reset.atBoundary = true ∧ hello.length = (5 : Word16).toNat := by decide

theorem witness_CompleteFrameEmitsItsVerdict : boundary.atBoundary = true ∧ hello.length = (hdrLen sensHello).toNat := by decide

/-- A whole frame, and one cut one byte short by the close, by a reset and by the end of the input. -/
theorem witness_FrameInstructionIsItsBeats : boundary.atBoundary = true ∧ boundary.grain = .beat ∧
    hello.length = (hdrLen sensHello).toNat ∧ (hello.take 4).length < (hdrLen sensHello).toNat ∧
    takeBytes 1 [eosEdge] = ([], [eosEdge]) ∧ takeBytes 1 [rstEdge] = ([], [rstEdge]) ∧ takeBytes 1 [] = ([], []) := by decide

theorem witness_HeaderInsideAFrameIsEightBytes : inBody.atBoundary = false ∧ inBody.grain = .beat ∧ inBody.st ≠ .closed := by
  decide

theorem witness_CutFrameIsReportedTruncated : ({ boundary with grain := .frame } : State).atBoundary = true ∧
    ({ boundary with grain := .frame } : State).grain = .frame ∧ (hello.take 4).length < (hdrLen sensHello).toNat := by decide

theorem witness_CorrectlyBuiltFramesAreForwarded : (List.replicate 65535 (0xFF : Byte)).length ≤ 65535 := by
  rw [List.length_replicate]

theorem witness_StepRunsTheAcceptedBeat : (inBody.withInput [byteEdge 0x68]).input = byteEdge 0x68 :: [] ∧
    (byteEdge 0x68).rst = false ∧ (byteEdge 0x68).valid = true ∧ (inBody.withInput [byteEdge 0x68]).inReady = true ∧
    (inBody.withInput [byteEdge 0x68]).grain = .beat ∧ decode (.b9 (byteEdge 0x68).beat) = .byte 0x68 := by decide

theorem witness_StepRunsTheDecodedHeader :
    (State.reset.withFetchWord 64 0xCC400005231B0000).grain = .frame ∧
    (State.reset.withFetchWord 64 0xCC400005231B0000).atBoundary = true ∧
    (State.reset.withFetchWord 64 0xCC400005231B0000).input = sensHello.toList.map byteEdge ++ [] ∧
    decode (.h64 (packHeader sensHello)) = .frmSens 5 0x231B := by decide

theorem witness_ResetFromEveryState : (inBody.withInput [rstEdge]).input = rstEdge :: [] ∧ rstEdge.rst = true := by decide

theorem witness_QuietCycleKeepsTheRegisters : inBody.grain = .beat ∧ inBody.input = [] ∧
    (inBody.withInput [idleEdge]).input = idleEdge :: [] ∧ idleEdge.rst = false ∧ idleEdge.valid = false := by decide

/-- A state inside a body has the invariants, and a step from it goes on. -/
theorem witness_EveryStepKeepsTheInvariants :
    (inBody.withInput [byteEdge 0x68]).Inv ∧ ∃ t, step (inBody.withInput [byteEdge 0x68]) = .next t := by
  refine ⟨?_, _, rfl⟩
  constructor
  · decide
  · decide
  · decide
  · intro h
    exact absurd h (by decide)
  · decide
  · decide
  · decide
  · exact fun _ => ⟨[], by decide, by decide⟩
  · decide
  · decide
  · decide

theorem witness_AtMostOneEventPerStep : ∃ t, step (inBody.withInput [eosEdge]) = .next t := ⟨_, rfl⟩

theorem witness_OpenBlockAlwaysSteps : inBody.st ≠ .closed := by decide

theorem witness_ClosedUntilReset : (row .closed 0 0 0 0 0).st = .closed ∧
    (∀ e ∈ ((row .closed 0 0 0 0 0).withInput [idleEdge, byteEdge 0xCC]).input, e.rst = false) ∧
    ((row .closed 0 0 0 0 0).withInput [byteEdge 0xCC]).input = byteEdge 0xCC :: [] ∧ (byteEdge 0xCC).valid = true ∧
    (∃ t, Sys2Proof.core.run 1 ((row .closed 0 0 0 0 0).withInput [idleEdge, byteEdge 0xCC]) = .next t) :=
  ⟨by decide, by decide, by decide, by decide, _, rfl⟩

theorem witness_ClosedWaitsForReset : (row .closed 0 0 0 0 0).st = .closed ∧
    ((row .closed 0 0 0 0 0).withInput [byteEdge 0xCC, rstEdge]).input = byteEdge 0xCC :: [rstEdge] ∧
    (byteEdge 0xCC).rst = false ∧ (∃ r ∈ [rstEdge], r.rst = true) := by decide

theorem witness_StreamEventsAreRun : boundary.atBoundary = true ∧ boundary.grain = .beat := by decide

theorem witness_FrameGrainEmitsTheSameEvents : ({ boundary with grain := .frame } : State).atBoundary = true ∧
    ({ boundary with grain := .frame } : State).grain = .frame := by decide

theorem witness_StaleHeaderIsUnobservable : boundary.atBoundary = true := by decide

end Sys2Proof.Tests
end

/-! PROOFS. The header parser and the field extractors (spec/41_header_parse.md): the five checks and the fields as arithmetic
on the header bytes, what each `HDR` row answers, and the statements of the family. -/

namespace Sys2Proof.Machine

/-! ### The checks as arithmetic on the bytes (R120, R121) -/

/-- Check 1: the magic byte. -/
theorem ne_magic_iff (b : Byte) : b ≠ Config.magic ↔ b.toNat ≠ 0xCC := BitVec.toNat_ne_iff_ne.symm

/-- Check 2: the reserved mask is bit 7. -/
theorem and_optReserved_ne_zero_iff (b : Byte) : b &&& Config.optReserved ≠ 0 ↔ 128 ≤ b.toNat := by
  revert b
  decide

/-- Check 3: the padding mask is bits 5:0. -/
theorem and_optPadding_ne_zero_iff (b : Byte) : b &&& Config.optPadding ≠ 0 ↔ b.toNat % 64 ≠ 0 := by
  revert b
  decide

/-- Once checks 2 and 3 have passed, the options byte is `00` or `40`: the header is plain exactly when the byte is 0. -/
theorem and_optSensitive_eq_zero_iff (b : Byte) (reserved : ¬128 ≤ b.toNat) (padding : ¬b.toNat % 64 ≠ 0) :
    b &&& Config.optSensitive = 0 ↔ b.toNat = 0 := by
  revert b
  decide

/-- A byte is not 0 when its number is not. -/
theorem byte_ne_zero_iff (b : Byte) : b ≠ 0 ↔ b.toNat ≠ 0 := BitVec.toNat_ne_iff_ne.symm

/-- Check 4: some of four bytes is not 0 when their sum is not. -/
theorem four_bytes_nonzero_iff (a b c d : Byte) :
    (a ≠ 0 ∨ b ≠ 0 ∨ c ≠ 0 ∨ d ≠ 0) ↔ ¬a.toNat + b.toNat + c.toNat + d.toNat = 0 := by
  simp only [byte_ne_zero_iff]
  omega

/-- Check 5: one of two bytes is not 0 when their sum is not. -/
theorem two_bytes_nonzero_iff (a b : Byte) : (a ≠ 0 ∨ b ≠ 0) ↔ ¬a.toNat + b.toNat = 0 := by
  simp only [byte_ne_zero_iff]
  omega

/-! ### The fields (R122 to R124) -/

/-- The assembly of two bytes is the word of their big-endian number (R10). -/
theorem be16_eq_ofNat (hi lo : Byte) : be16 hi lo = BitVec.ofNat 16 (hi.toNat * 256 + lo.toNat) := by
  rw [← be16_toNat, BitVec.ofNat_toNat, BitVec.setWidth_eq]

/-- `HDR.SENS` is bit 6 of the options byte (R123). -/
theorem hdrSens_eq_bit6 (h : HeaderBytes) : hdrSens h = h.b1.getLsbD 6 := by
  have mask : ∀ b : Byte, (b &&& Config.optSensitive != 0) = b.getLsbD 6 := by decide
  exact mask h.b1

/-- `HDR.SENS` is false when the sensitive mask finds no bit (R123). -/
theorem hdrSens_eq_false {h : HeaderBytes} (plain : h.b1 &&& Config.optSensitive = 0) : hdrSens h = false :=
  bne_eq_false_iff_eq.mpr plain

/-- `HDR.SENS` is true when the sensitive mask finds a bit (R123). -/
theorem hdrSens_eq_true {h : HeaderBytes} (sens : ¬h.b1 &&& Config.optSensitive = 0) : hdrSens h = true :=
  bne_iff_ne.mpr sens

/-! ### What the rows answer: the result delivered and nothing else -/

theorem exec_hdrParse (h : HeaderBytes) (s : State) :
    exec (.hdrParse h) s = .next { s with result := .parsed (hdrParse h) } := rfl

theorem exec_hdrLen (h : HeaderBytes) (s : State) :
    exec (.hdrLen h) s = .next { s with result := .word (hdrLen h) } := rfl

theorem exec_hdrSens (h : HeaderBytes) (s : State) :
    exec (.hdrSens h) s = .next { s with result := .flag (hdrSens h) } := rfl

theorem exec_hdrClaimed (h : HeaderBytes) (s : State) :
    exec (.hdrClaimed h) s = .next { s with result := .word (hdrClaimed h) } := rfl

/-! ### The statements of the family -/

/-- Settles O14: each check is the same arithmetic condition on both sides, in the same order; only the sensitivity needs
that checks 2 and 3 have passed. -/
theorem hdrParseReportsFirstFailingCheck : Obligations.HdrParseReportsFirstFailingCheck := by
  unfold Obligations.HdrParseReportsFirstFailingCheck
  intro h s
  rw [exec_hdrParse]
  simp only [hdrParse, ne_magic_iff, and_optReserved_ne_zero_iff, and_optPadding_ne_zero_iff, ite_not]
  by_cases magic : h.b0.toNat = 0xCC
  · by_cases reserved : 128 ≤ h.b1.toNat
    · simp only [if_pos magic, if_pos reserved]
    · by_cases padding : h.b1.toNat % 64 = 0
      · have options := and_optSensitive_eq_zero_iff h.b1 reserved (not_not.mpr padding)
        by_cases plain : h.b1 &&& Config.optSensitive = 0
        · simp only [if_pos plain, if_pos (options.mp plain), four_bytes_nonzero_iff, ite_not, hdrSens_eq_false plain,
            hdrLen, be16]
        · simp only [if_neg plain, if_neg (mt options.mpr plain), two_bytes_nonzero_iff, ite_not, hdrSens_eq_true plain,
            hdrLen, be16]
      · simp only [if_pos magic, if_neg reserved, if_neg padding]
  · simp only [if_neg magic]

/-- Settles O15: each row delivers its field, the big-endian number of two bytes or one bit. -/
theorem hdrExtractorsDeliverTheFields : Obligations.HdrExtractorsDeliverTheFields := by
  unfold Obligations.HdrExtractorsDeliverTheFields
  intro h s
  refine ⟨?_, ?_, ?_⟩
  · rw [exec_hdrLen, hdrLen, be16_eq_ofNat]
  · rw [exec_hdrSens, hdrSens_eq_bit6]
  · rw [exec_hdrClaimed, hdrClaimed, be16_eq_ofNat]

end Sys2Proof.Machine

/-! PROOFS. The framing sequencer's two beats (spec/42_sequencer.md R152 to R158): which step of the model each beat takes, each
step as one record update in the spec's own numbers, and the statements of the family. -/

namespace Sys2Proof.Machine

/-! ### The step each beat takes (R151) -/

section

variable {s : State} {b : Byte}

theorem exec_byte_in_header (hdr : s.st = .hdr) (idx : s.idx.toNat < 7) :
    exec (.byte b) s = .next (latchHeaderByte b s) := by
  change byteBeat b s = _
  simp only [byteBeat, hdr, if_pos idx]

theorem exec_byte_at_header_end (hdr : s.st = .hdr) (idx : s.idx = 7) :
    exec (.byte b) s = .next (completeHeader b s) := by
  change byteBeat b s = _
  have last : ¬s.idx.toNat < 7 := by
    rw [idx]
    decide
  simp only [byteBeat, hdr, if_neg last]

theorem exec_byte_in_body (body : s.st = .body) : exec (.byte b) s = .next (bodyByte b s) := by
  change byteBeat b s = _
  simp only [byteBeat, body]

theorem exec_byte_in_skip (skip : s.st = .skip) : exec (.byte b) s = .next (skipByte s) := by
  change byteBeat b s = _
  simp only [byteBeat, skip]

theorem exec_eos_of_open (opened : s.st ≠ .closed) :
    exec .eos s = .next ((s.emit (closedEvent (truncFlag s.st s.idx))).close) := by
  rcases execEos_cases s with ⟨-, closes⟩ | ⟨closed, -⟩
  · exact closes
  · exact absurd closed opened

end

/-! ### The values the steps write -/

/-- The covered byte as a number: the placeholder at offsets 4 and 5 (R98). -/
theorem coveredByte_toNat (i : BitVec 3) (b : Byte) :
    (coveredByte i b).toNat = if i = 4 ∨ i = 5 then 0xCC else b.toNat := apply_ite BitVec.toNat _ _ _

/-- `CSUM.ABSORB` with the byte's weight and the toggled phase, both by cases on the phase (R98). -/
theorem csumAbsorb_by_phase (acc : Word32) (ph : BitVec 1) (a : Byte) :
    csumAbsorb acc ph a =
      (acc + BitVec.ofNat 32 (a.toNat * (if ph = 0 then 256 else 1)), if ph = 0 then 1 else 0) := by
  rw [csumAbsorb_eq, nextPhase_eq]

/-- `trunc` is exactly "not at `HDR` with `IDX = 0`" (R157). -/
theorem truncFlag_eq_decide (st : SeqState) (i : BitVec 3) : truncFlag st i = decide (¬(st = .hdr ∧ i = 0)) := by
  rw [truncFlag, decide_not, Bool.decide_and]
  rfl

/-- A frame that ends in `HDR` leaves `ST` as it is (R153, R160). -/
theorem State.endFrame_of_hdr {s : State} (hdr : s.st = .hdr) (e : Event) :
    s.endFrame e = { s.emit e with idx := 0, rem := 0, acc := 0, ph := 0, rsn := 0 } := by
  rw [State.endFrame, State.finish, ← hdr]
  rfl

/-! ### Header completion, case by case (R153) -/

section

variable {s : State} {b : Byte}

theorem completeHeader_of_empty (empty : hdrLen (s.hdr.set 7 b) = 0) :
    completeHeader b s =
      (((s.latch b).setIdx 0).advance 1).endFrame
        (frameEvent (s.hdr.set 7 b) (parseCode (hdrParse (s.hdr.set 7 b))) (s.acc + BitVec.ofNat 32 b.toNat)) := by
  simp only [completeHeader, if_pos empty, BitVec.ofNat_toNat]

theorem completeHeader_of_ok (nonempty : hdrLen (s.hdr.set 7 b) ≠ 0) {len : Word16} {sens : Bool}
    (ok : hdrParse (s.hdr.set 7 b) = .ok len sens) :
    completeHeader b s =
      ((((s.latch b).setIdx 0).advance 1).setSum (s.acc + BitVec.ofNat 32 b.toNat, 0)).quiet.enterBody
        (hdrLen (s.hdr.set 7 b)) := by
  have accepted : parseCode (hdrParse (s.hdr.set 7 b)) = 0 := (parseCode_eq_zero _).mpr ⟨len, sens, ok⟩
  simp only [completeHeader, if_neg nonempty, if_pos accepted, BitVec.ofNat_toNat]

theorem completeHeader_of_err (nonempty : hdrLen (s.hdr.set 7 b) ≠ 0) {reason : Reason}
    (err : hdrParse (s.hdr.set 7 b) = .err reason) :
    completeHeader b s =
      ((((s.latch b).setIdx 0).advance 1).setSum (s.acc + BitVec.ofNat 32 b.toNat, 0)).quiet.takeReject
        reason.code (hdrLen (s.hdr.set 7 b)) := by
  simp only [completeHeader, err, if_neg nonempty, parseCode, if_neg reason.code_ne_zero, BitVec.ofNat_toNat]

end

/-! ### The event of a frame, case by case (R158) -/

section

variable (h : HeaderBytes) (acc : Word32)

theorem frameEvent_of_rejected {k : BitVec 3} (rejected : k ≠ 0) :
    frameEvent h k acc = ⟨k, hdrLen h, false, 0, 0, false⟩ := if_pos rejected

theorem frameEvent_of_accepted :
    frameEvent h 0 acc =
      ⟨acceptedCode (hdrSens h) (~~~csumFold acc.toNat) (hdrClaimed h), hdrLen h, hdrSens h, hdrClaimed h,
        ~~~csumFold acc.toNat, false⟩ := if_neg (not_not.mpr rfl)

end

/-- A plain frame has code 0 whatever its checksums (R158). -/
theorem acceptedCode_of_plain (computed claimed : Word16) : acceptedCode false computed claimed = 0 := rfl

/-- A frame whose checksums agree has code 0 (R158). -/
theorem acceptedCode_of_match (sens : Bool) (claimed : Word16) : acceptedCode sens claimed claimed = 0 := by
  rw [acceptedCode, bne_self_eq_false, Bool.and_false]
  rfl

/-- A sensitive frame whose checksums differ has code 6 (R158). -/
theorem acceptedCode_of_mismatch {computed claimed : Word16} (differ : computed ≠ claimed) :
    acceptedCode true computed claimed = 6 := if_pos (bne_iff_ne.mpr differ)

/-! ### The statements of the family -/

/-- Settles O26: the frame ends at once when its length is 0; otherwise the parse decides between `BODY` and `SKIP`. -/
theorem byteCompletesHeader : Obligations.ByteCompletesHeader := by
  unfold Obligations.ByteCompletesHeader
  intro s b hdr idx h acc
  have latched : s.latch b = { s with hdr := h } := by rw [State.latch, idx]; rfl
  rw [exec_byte_at_header_end hdr idx]
  congr 1
  by_cases empty : hdrLen h = 0
  · have inHdr : (((s.latch b).setIdx 0).advance 1).st = .hdr := hdr
    rw [if_pos empty, completeHeader_of_empty empty, State.endFrame_of_hdr inHdr, latched]
    rfl
  · rw [if_neg empty]
    cases parse : hdrParse h with
    | ok len sens =>
      rw [completeHeader_of_ok empty parse, latched]
      rfl
    | err reason =>
      rw [completeHeader_of_err empty parse, latched]
      rfl

/-- Settles O25: the absorbed byte is the covered one, the latched byte the one received. -/
theorem byteLatchesHeaderByte : Obligations.ByteLatchesHeaderByte := by
  unfold Obligations.ByteLatchesHeaderByte
  intro s b hdr idx
  rw [exec_byte_in_header hdr idx, latchHeaderByte, csumAbsorb_by_phase, coveredByte_toNat]
  rfl

/-- Settles O27: the last body byte is summed before the frame's event is formed. -/
theorem bodyByteIsSummed : Obligations.BodyByteIsSummed := by
  unfold Obligations.BodyByteIsSummed
  intro s b body acc
  rw [exec_byte_in_body body]
  simp only [bodyByte, csumAbsorb_by_phase]
  by_cases last : s.rem = 1
  · rw [if_pos last, if_pos last]
    rfl
  · rw [if_neg last, if_neg last]
    rfl

/-- Settles O28: the step does not take the byte; the last one returns from the framing error. -/
theorem skipByteIsIgnored : Obligations.SkipByteIsIgnored := by
  unfold Obligations.SkipByteIsIgnored
  intro s b skip
  rw [exec_byte_in_skip skip, skipByte]
  by_cases last : s.rem = 1
  · rw [if_pos last, if_pos last]
    rfl
  · rw [if_neg last, if_neg last]
    rfl

/-- Settles O29: the computed checksum is the complement of the folded accumulator. -/
theorem frameEventFields : Obligations.FrameEventFields := by
  unfold Obligations.FrameEventFields
  intro h k acc
  refine ⟨frameEvent_of_rejected h acc, ?_⟩
  rintro rfl
  refine ⟨~~~csumFold acc.toNat, complement16_toNat _, ?_, ?_, ?_⟩ <;> rw [frameEvent_of_accepted]
  · intro sens differ
    rw [sens, acceptedCode_of_mismatch differ]
  · intro sens same
    rw [sens, same, acceptedCode_of_match]
  · intro plain
    rw [plain, acceptedCode_of_plain]

/-- Settles O30: the close clears every register; only `trunc` depends on where the stream ended. -/
theorem eosClosesTheStream : Obligations.EosClosesTheStream := by
  unfold Obligations.EosClosesTheStream
  intro s opened e
  rw [exec_eos_of_open opened, truncFlag_eq_decide]
  rfl

end Sys2Proof.Machine

/-! PROOFS. Reset (spec/70_reset_and_hazards.md R230, R231): the step at an edge with `rst = 1`, what the reset action makes of
a state, and the statements of the family. -/

namespace Sys2Proof.Machine

/-! ### The edge with reset (R230) -/

section

variable {s : State} {e : Edge} {rest : List Edge}

/-- Reset is looked at before the beat: neither the other pins nor `ST` are read. -/
theorem fetchEdge_of_rst (offered : s.input = e :: rest) (reset : e.rst = true) :
    fetchEdge s = .noBeat (s.withInput rest).resetRegisters := by
  simp only [fetchEdge, offered, reset, if_true]

/-- In either grain the edge with reset is one step, and no instruction is run. -/
theorem step_of_rst (offered : s.input = e :: rest) (reset : e.rst = true) :
    step s = .next (s.withInput rest).resetRegisters := by
  apply step_of_noBeat
  rw [fetch_of_stop s e rest offered (.inl reset), fetchEdge_of_rst offered reset]

end

/-! ### The reset state (R231) -/

/-- The reset action gives the reset state, but for the fields that are the model's own and not the block's. -/
theorem resetRegisters_eq_reset (s : State) :
    s.resetRegisters =
      { State.reset with input := s.input, events := s.events, result := s.result, grain := s.grain } := rfl

/-- `in_ready` is 1 after reset: `ST` is not `CLOSED`. -/
theorem reset_inReady : State.reset.inReady = true := by
  rw [State.inReady, State.reset_st]
  decide

/-- The first byte after reset is byte 0 of a header. -/
theorem reset_atBoundary : State.reset.atBoundary = true := by
  simp only [State.atBoundary, State.reset_st, State.reset_idx, State.reset_rem, State.reset_acc, State.reset_ph,
    State.reset_rsn]
  decide

/-! ### The statements of the family -/

/-- Settles O44: the step is the reset action on the state whose input has lost the edge. -/
theorem resetFromEveryState : Obligations.ResetFromEveryState := by
  unfold Obligations.ResetFromEveryState
  intro s e rest offered reset
  refine ⟨_, step_of_rst offered reset, ?_⟩
  rw [resetRegisters_eq_reset]
  exact ⟨rfl, rfl, rfl, rfl, rfl, rfl, rfl, rfl, rfl, rfl, rfl⟩

/-- Settles O45: the registers and the port are 0 as `State.reset` writes them; `in_ready` and the boundary follow. -/
theorem resetStateValues : Obligations.ResetStateValues := by
  unfold Obligations.ResetStateValues
  exact ⟨rfl, rfl, rfl, rfl, rfl, rfl, rfl, rfl, rfl, reset_inReady, reset_atBoundary⟩

end Sys2Proof.Machine

/-! PROOFS. Decoding and encoding (spec/30_encoding.md sections 2 to 4): what the encoder's word of each header class
decodes to, every word as the encoding of what it decodes to, the exact patterns of R70 as conditions on the four parts
of a word, and the statements about them. -/

namespace Sys2Proof

/-! ### What each encoded word decodes to (R61, R68) -/

theorem decodeHeader_plainWord (length : Word16) : decodeHeader (plainWord length) = .frmPlain length := by
  have cls : classOf (plainWord length) = .frmPlain := by
    rw [plainWord, classOf_headerWord]
    rfl
  simp only [decodeHeader, cls]
  simp only [plainWord, headerWord_length]

theorem decodeHeader_sensWord (length claimed : Word16) :
    decodeHeader (sensWord length claimed) = .frmSens length claimed := by
  have low : _ ∧ _ := (tail_low_eq_zero claimed 0).mpr rfl
  have cls : classOf (sensWord length claimed) = .frmSens := by
    rw [sensWord, classOf_headerWord]
    exact (if_pos rfl).trans ((if_neg (by decide)).trans ((if_pos rfl).trans (if_pos low)))
  obtain ⟨high, -⟩ := headerWord_tailHalves Config.magic Config.optSensitive length claimed 0
  simp only [decodeHeader, cls]
  simp only [sensWord, headerWord_length, high]

/-- An options byte with bit 7 set is none of the accepted ones, and its other bits are read back (R164). -/
theorem reservedOptions_spec (low : BitVec 7) :
    ((1 : BitVec 1) ++ low : Byte) ≠ 0 ∧ ((1 : BitVec 1) ++ low : Byte) ≠ 0x40 ∧
    ((1 : BitVec 1) ++ low : Byte) &&& 0x80 ≠ 0 ∧ ((1 : BitVec 1) ++ low : Byte).extractLsb' 0 7 = low := by
  revert low
  decide

theorem decodeHeader_rsvdWord (low : BitVec 7) (length : Word16) (tail : Word32) :
    decodeHeader (rsvdWord low length tail) = .rejRsvd low length tail := by
  obtain ⟨ne0, ne40, bit7, bits⟩ := reservedOptions_spec low
  have cls : classOf (rsvdWord low length tail) = .rejRsvd := by
    rw [rsvdWord, classOf_headerWord]
    exact (if_pos rfl).trans ((if_neg ne0).trans ((if_neg ne40).trans (if_neg bit7)))
  obtain ⟨low7, -, -⟩ := headerWord_optionBits Config.magic ((1 : BitVec 1) ++ low) length tail
  simp only [decodeHeader, cls]
  simp only [rsvdWord, headerWord_length, headerWord_tail, low7, bits]

theorem decodeHeader_pad4Word (length : Word16) (tail : Word32) (nonzero : tail ≠ 0) :
    decodeHeader (pad4Word length tail) = .rejPad4 length tail := by
  have cls : classOf (pad4Word length tail) = .rejPad4 := by
    rw [pad4Word, classOf_headerWord]
    exact (if_pos rfl).trans ((if_pos rfl).trans (if_neg nonzero))
  simp only [decodeHeader, cls]
  simp only [pad4Word, headerWord_length, headerWord_tail]

theorem decodeHeader_pad2Word (length checksum pad : Word16) (nonzero : pad ≠ 0) :
    decodeHeader (pad2Word length checksum pad) = .rejPad2 length checksum pad := by
  have low_nonzero := mt (tail_low_eq_zero checksum pad).mp nonzero
  have cls : classOf (pad2Word length checksum pad) = .rejPad2 := by
    rw [pad2Word, classOf_headerWord]
    exact (if_pos rfl).trans ((if_neg (by decide)).trans ((if_pos rfl).trans (if_neg low_nonzero)))
  obtain ⟨high, low⟩ := headerWord_tailHalves Config.magic Config.optSensitive length checksum pad
  simp only [decodeHeader, cls]
  simp only [pad2Word, headerWord_length, high, low]

/-- An options byte with bit 7 clear and a padding bit set is none of the accepted ones, and its bits are read back
(R165). -/
theorem paddingOptions_spec (sens : BitVec 1) (padding : BitVec 6) (nonzero : padding ≠ 0) :
    ((0 : BitVec 1) ++ sens ++ padding : Byte) ≠ 0 ∧ ((0 : BitVec 1) ++ sens ++ padding : Byte) ≠ 0x40 ∧
    ((0 : BitVec 1) ++ sens ++ padding : Byte) &&& 0x80 = 0 ∧
    ((0 : BitVec 1) ++ sens ++ padding : Byte).extractLsb' 6 1 = sens ∧
    ((0 : BitVec 1) ++ sens ++ padding : Byte).extractLsb' 0 6 = padding := by
  revert sens padding
  decide

theorem decodeHeader_padbitsWord (sens : BitVec 1) (padding : BitVec 6) (length : Word16) (tail : Word32)
    (nonzero : padding ≠ 0) :
    decodeHeader (padbitsWord sens padding length tail) = .rejPadbits sens padding length tail := by
  obtain ⟨ne0, ne40, bit7, sensBit, paddingBits⟩ := paddingOptions_spec sens padding nonzero
  have cls : classOf (padbitsWord sens padding length tail) = .rejPadbits := by
    rw [padbitsWord, classOf_headerWord]
    exact (if_pos rfl).trans ((if_neg ne0).trans ((if_neg ne40).trans (if_pos bit7)))
  obtain ⟨-, bit6, low6⟩ := headerWord_optionBits Config.magic ((0 : BitVec 1) ++ sens ++ padding) length tail
  simp only [decodeHeader, cls]
  simp only [padbitsWord, headerWord_length, headerWord_tail, bit6, low6, sensBit, paddingBits]

theorem decodeHeader_magicWord (magic options : Byte) (length : Word16) (tail : Word32) (other : magic ≠ Config.magic) :
    decodeHeader (magicWord magic options length tail) = .rejMagic magic options length tail := by
  have cls : classOf (magicWord magic options length tail) = .rejMagic := by
    rw [magicWord, classOf_headerWord]
    exact if_neg other
  simp only [decodeHeader, cls]
  simp only [magicWord, headerWord_magic, headerWord_options, headerWord_length, headerWord_tail]

/-! ### The beat (R72) -/

theorem decodeBeat_byteWord (b : Byte) : decodeBeat (byteWord b) = .byte b := by
  revert b
  decide

theorem decodeBeat_eosBit (b : Byte) : decodeBeat ((1 : BitVec 1) ++ b) = .eos := by
  revert b
  decide

/-- Exactly the rows of format `FUNC` have no word (R60). -/
theorem encode_eq_none_iff (i : Instr) : encode i = none ↔ i.format = .func := by
  cases i <;> simp [encode, Instr.format]

/-- Settles O18, by the constructors: a rejected class is read back because its check fails. -/
theorem decodeOfEncodeIsTheInstruction : Obligations.DecodeOfEncodeIsTheInstruction := by
  unfold Obligations.DecodeOfEncodeIsTheInstruction
  refine fun i => ⟨encode_eq_none_iff i, fun wf w enc => ?_⟩
  cases i
  case frmPlain length => cases enc; exact decodeHeader_plainWord length
  case frmSens length claimed => cases enc; exact decodeHeader_sensWord length claimed
  case rejRsvd low length tail => cases enc; exact decodeHeader_rsvdWord low length tail
  case rejPad4 length tail => cases enc; exact decodeHeader_pad4Word length tail (bne_iff_ne.mp wf)
  case rejPad2 length checksum pad => cases enc; exact decodeHeader_pad2Word length checksum pad (bne_iff_ne.mp wf)
  case rejPadbits sens padding length tail =>
    cases enc; exact decodeHeader_padbitsWord sens padding length tail (bne_iff_ne.mp wf)
  case rejMagic magic options length tail =>
    cases enc; exact decodeHeader_magicWord magic options length tail (bne_iff_ne.mp wf)
  case byte b => cases enc; exact decodeBeat_byteWord b
  case eos => cases enc; rfl
  all_goals cases enc

/-! ### Every word is the encoding of what it decodes to -/

/-- Every word is one of the seven encoded words, with the operands of its class well formed (R68, R69). -/
theorem headerWord_cases (w : HeaderWord) :
    (∃ length, w = plainWord length) ∨
    (∃ length claimed, w = sensWord length claimed) ∨
    (∃ low length tail, w = rsvdWord low length tail) ∨
    (∃ length tail, tail ≠ 0 ∧ w = pad4Word length tail) ∨
    (∃ length checksum pad, pad ≠ 0 ∧ w = pad2Word length checksum pad) ∨
    (∃ sens padding length tail, padding ≠ 0 ∧ w = padbitsWord sens padding length tail) ∨
    (∃ magic options length tail, magic ≠ Config.magic ∧ w = magicWord magic options length tail) := by
  have clear : ∀ o : Byte, o ≠ 0 → o ≠ 0x40 → o &&& 0x80 = 0 →
      o = (0 : BitVec 1) ++ o.extractLsb' 6 1 ++ o.extractLsb' 0 6 ∧ o.extractLsb' 0 6 ≠ 0 := by decide
  have set : ∀ o : Byte, o &&& 0x80 ≠ 0 → o = (1 : BitVec 1) ++ o.extractLsb' 0 7 := by decide
  obtain ⟨magic, options, length, tail, rfl⟩ : ∃ m o l t, w = headerWord m o l t :=
    ⟨_, _, _, _, (headerWord_parts w).symm⟩
  by_cases isMagic : magic = Config.magic
  · subst isMagic
    by_cases plain : options = 0
    · subst plain
      by_cases zero : tail = 0
      · exact .inl ⟨length, by rw [zero]; rfl⟩
      · exact .inr (.inr (.inr (.inl ⟨length, tail, zero, rfl⟩)))
    · by_cases sens : options = 0x40
      · subst sens
        have halves := tail_halves tail
        by_cases zero : tail.extractLsb' 0 16 = 0
        · exact .inr (.inl ⟨length, tail.extractLsb' 16 16, by rw [sensWord, ← zero, halves]⟩)
        · exact .inr (.inr (.inr (.inr (.inl ⟨length, tail.extractLsb' 16 16, _, zero, by rw [pad2Word, halves]⟩))))
      · by_cases bit7 : options &&& 0x80 = 0
        · obtain ⟨bits, nonzero⟩ := clear options plain sens bit7
          exact .inr (.inr (.inr (.inr (.inr (.inl ⟨options.extractLsb' 6 1, _, length, tail, nonzero,
            by rw [padbitsWord, ← bits]⟩)))))
        · exact .inr (.inr (.inl ⟨options.extractLsb' 0 7, length, tail, by rw [rsvdWord, ← set options bit7]⟩))
  · exact .inr (.inr (.inr (.inr (.inr (.inr ⟨magic, options, length, tail, isMagic, rfl⟩)))))

theorem encode_decodeHeader (w : HeaderWord) :
    (decodeHeader w).wellFormed = true ∧ encode (decodeHeader w) = some (.h64 w) := by
  rcases headerWord_cases w with ⟨length, rfl⟩ | ⟨length, claimed, rfl⟩ | ⟨low, length, tail, rfl⟩ |
    ⟨length, tail, nonzero, rfl⟩ | ⟨length, checksum, pad, nonzero, rfl⟩ | ⟨sens, padding, length, tail, nonzero, rfl⟩ |
    ⟨magic, options, length, tail, other, rfl⟩
  · rw [decodeHeader_plainWord]
    exact ⟨rfl, rfl⟩
  · rw [decodeHeader_sensWord]
    exact ⟨rfl, rfl⟩
  · rw [decodeHeader_rsvdWord]
    exact ⟨rfl, rfl⟩
  · rw [decodeHeader_pad4Word length tail nonzero]
    exact ⟨bne_iff_ne.mpr nonzero, rfl⟩
  · rw [decodeHeader_pad2Word length checksum pad nonzero]
    exact ⟨bne_iff_ne.mpr nonzero, rfl⟩
  · rw [decodeHeader_padbitsWord sens padding length tail nonzero]
    exact ⟨bne_iff_ne.mpr nonzero, rfl⟩
  · rw [decodeHeader_magicWord magic options length tail other]
    exact ⟨bne_iff_ne.mpr other, rfl⟩

theorem encode_decodeBeat (w : BitVec 9) :
    (decodeBeat w).wellFormed = true ∧ encode (decodeBeat w) = some (.b9 (if w.getLsbD 8 then 0x100 else w)) := by
  revert w
  decide

/-- Settles O19: a header word is one of the seven encoded words, which O18's lemmas decode; the beats are 512 cases. -/
theorem encodeOfDecodeIsTheWord : Obligations.EncodeOfDecodeIsTheWord := by
  unfold Obligations.EncodeOfDecodeIsTheWord
  exact ⟨encode_decodeHeader, encode_decodeBeat⟩

/-! ### The class and the five checks (R68, R69, R120) -/

/-- Settles O20: table and checks are the same case split on the header's bytes, and a word's fields are its bytes. -/
theorem decodedClassIsTheParseResult : Obligations.DecodedClassIsTheParseResult := by
  unfold Obligations.DecodedClassIsTheParseResult
  intro h
  have len : (packHeader h).extractLsb' 32 16 = Machine.hdrLen h := packHeader_length h
  have claimed : (packHeader h).extractLsb' 16 16 = Machine.hdrClaimed h := packHeader_checksum h
  simp only [decodeHeader, classOf_packHeader, Machine.hdrParse_bytes, len, claimed]
  by_cases magic : h.b0 = 0xCC#8
  · by_cases plain : h.b1 = 0#8
    · by_cases zero : h.b4 = 0#8 ∧ h.b5 = 0#8 ∧ h.b6 = 0#8 ∧ h.b7 = 0#8
      · have claimed_zero : Machine.hdrClaimed h = 0 := by
          rw [Machine.hdrClaimed, zero.1, zero.2.1]
          rfl
        simp only [if_pos magic, if_pos plain, if_pos zero, claimed_zero, and_self]
      · simp only [if_pos magic, if_pos plain, if_neg zero, and_self]
    · by_cases sens : h.b1 = 0x40#8
      · by_cases zero : h.b6 = 0#8 ∧ h.b7 = 0#8
        · simp only [if_pos magic, if_neg plain, if_pos sens, if_pos zero, and_self]
        · simp only [if_pos magic, if_neg plain, if_pos sens, if_neg zero, and_self]
      · by_cases bit7 : h.b1 &&& 0x80#8 = 0#8
        · simp only [if_pos magic, if_neg plain, if_neg sens, if_pos bit7, and_self]
        · simp only [if_pos magic, if_neg plain, if_neg sens, if_neg bit7, and_self]
  · simp only [if_neg magic, and_self]

/-! ### The exact patterns (R70) -/

/-- A pattern covers a word when they agree at each bit of the mask. -/
theorem Pattern.covers_iff (p : Pattern) (w : HeaderWord) :
    p.covers w = true ↔ ∀ i, (w.getLsbD i && p.mask.getLsbD i) = p.value.getLsbD i := by
  rw [Pattern.covers, beq_iff_eq]
  constructor
  · intro eq i
    rw [← eq, BitVec.getLsbD_and]
  · intro bits
    exact BitVec.eq_of_getLsbD_eq fun i _ => by rw [BitVec.getLsbD_and, bits]

/-- The word with bit `k` alone. -/
theorem one_shiftLeft_bit (k i : Nat) (inWord : k < 64) : ((1 : HeaderWord) <<< k).getLsbD i = decide (i = k) := by
  change (1#64 <<< k).getLsbD i = _
  rw [← BitVec.twoPow_eq, BitVec.getLsbD_twoPow]
  simp only [inWord, decide_true, Bool.true_and, eq_comm]

/-- Fixing one more bit of a pattern, to that of `v`. -/
theorem Pattern.covers_fix (p : Pattern) (v w : HeaderWord) (k : Nat) (inWord : k < 64)
    (freeMask : p.mask.getLsbD k = false) (freeValue : p.value.getLsbD k = false) :
    Pattern.covers ⟨p.mask ||| (1 : HeaderWord) <<< k, p.value ||| (v &&& (1 : HeaderWord) <<< k)⟩ w = true ↔
      p.covers w = true ∧ w.getLsbD k = v.getLsbD k := by
  simp only [Pattern.covers_iff, BitVec.getLsbD_or, BitVec.getLsbD_and, one_shiftLeft_bit k _ inWord]
  constructor
  · intro all
    refine ⟨fun i => ?_, ?_⟩
    · by_cases here : i = k
      · rw [here, freeMask, freeValue, Bool.and_false]
      · simpa [here] using all i
    · simpa [freeMask, freeValue] using all k
  · rintro ⟨rest, here⟩ i
    by_cases at_k : i = k
    · simp [at_k, freeMask, freeValue, here]
    · simpa [at_k] using rest i

/-- The patterns of R70 cover the words of the frame whose `n` bits from `low` on are not all those of `base`. -/
theorem firstDifference_covers (base w : HeaderWord) (low n : Nat) (inWord : low + n ≤ 64) (frame : Pattern)
    (free : ∀ i < n, frame.mask.getLsbD (low + i) = false ∧ frame.value.getLsbD (low + i) = false) :
    (firstDifference frame base low n).any (fun p => p.covers w) = true ↔
      frame.covers w = true ∧ ∃ i < n, w.getLsbD (low + i) ≠ base.getLsbD (low + i) := by
  induction n generalizing frame with
  | zero => simp [firstDifference]
  | succ n ih =>
    obtain ⟨freeMask, freeValue⟩ := free n (Nat.lt_succ_self n)
    have top : low + n < 64 := by omega
    have deeper := ih (by omega)
      ⟨frame.mask ||| (1 : HeaderWord) <<< (low + n), frame.value ||| (base &&& (1 : HeaderWord) <<< (low + n))⟩
      (fun i below => by
        obtain ⟨m, v⟩ := free i (by omega)
        have other : ¬low + i = low + n := by omega
        simp only [BitVec.getLsbD_or, BitVec.getLsbD_and, one_shiftLeft_bit _ _ top, m, v, other, decide_false,
          Bool.and_false, Bool.or_false, and_self])
    have differs : w.getLsbD (low + n) = (~~~base).getLsbD (low + n) ↔
        w.getLsbD (low + n) ≠ base.getLsbD (low + n) := by
      rw [BitVec.getLsbD_not, decide_eq_true top, Bool.true_and, Bool.eq_not]
    rw [firstDifference, List.any_cons, Bool.or_eq_true, deeper, Pattern.covers_fix frame _ w _ top freeMask freeValue,
      Pattern.covers_fix frame _ w _ top freeMask freeValue, differs, Nat.exists_lt_succ_right]
    by_cases same : w.getLsbD (low + n) = base.getLsbD (low + n)
    · simp only [same, ne_eq, not_true_eq_false, and_false, and_true, false_or, or_false]
    · simp only [same, ne_eq, not_false_eq_true, and_false, and_true, false_and, or_false, or_true]

/-- `n` bits from `low` on differ somewhere when the fields they are differ. -/
theorem exists_bit_ne_iff (w base : HeaderWord) (low n : Nat) :
    (∃ i < n, w.getLsbD (low + i) ≠ base.getLsbD (low + i)) ↔ w.extractLsb' low n ≠ base.extractLsb' low n := by
  rw [Ne, BitVec.eq_of_getLsbD_eq_iff]
  simp only [BitVec.getLsbD_extractLsb']
  push Not
  refine exists_congr fun i => and_congr_right fun below => ?_
  simp only [below, decide_true, Bool.true_and, Ne]

/-- The patterns of R70 cover the words of the frame whose field of `n` bits at `low` is not that of `base`. -/
theorem firstDifference_covers_iff (base w : HeaderWord) (low n : Nat) (inWord : low + n ≤ 64) (frame : Pattern)
    (free : ∀ i < n, frame.mask.getLsbD (low + i) = false ∧ frame.value.getLsbD (low + i) = false) :
    (firstDifference frame base low n).any (fun p => p.covers w) = true ↔
      frame.covers w = true ∧ w.extractLsb' low n ≠ base.extractLsb' low n := by
  rw [firstDifference_covers base w low n inWord frame free, exists_bit_ne_iff]

/-! The frames of R70's patterns, by the four parts of a word. -/

section

variable (magic options : Byte) (length : Word16) (tail : Word32)

/-- The magic byte and the whole options byte are fixed. -/
theorem covers_options (value : Byte) :
    Pattern.covers ⟨packHeader ⟨0xFF, 0xFF, 0, 0, 0, 0, 0, 0⟩, packHeader ⟨0xCC, value, 0, 0, 0, 0, 0, 0⟩⟩
      (headerWord magic options length tail) = true ↔ magic = 0xCC ∧ options = value := by
  rw [headerWord_bytes, Pattern.covers_packHeader]
  simp only [BitVec.ofNat_eq_ofNat, byte_and_ff, BitVec.and_zero, and_true]

/-- The magic byte and bit 7 of the options byte are fixed. -/
theorem covers_reservedBit (value : Byte) :
    Pattern.covers ⟨packHeader ⟨0xFF, 0x80, 0, 0, 0, 0, 0, 0⟩, packHeader ⟨0xCC, value, 0, 0, 0, 0, 0, 0⟩⟩
      (headerWord magic options length tail) = true ↔ magic = 0xCC ∧ options &&& 0x80 = value := by
  rw [headerWord_bytes, Pattern.covers_packHeader]
  simp only [BitVec.ofNat_eq_ofNat, byte_and_ff, BitVec.and_zero, and_true]

end

/-- What R70's patterns of a class say of the four parts of a word. -/
def exactCondition (magic options : Byte) (tail : Word32) : HeaderClass → Prop
  | .frmPlain => magic = 0xCC#8 ∧ options = 0#8 ∧ tail = 0#32
  | .frmSens => magic = 0xCC#8 ∧ options = 0x40#8 ∧ tail.extractLsb' 8 8 = 0#8 ∧ tail.extractLsb' 0 8 = 0#8
  | .rejRsvd => magic = 0xCC#8 ∧ options &&& 0x80#8 ≠ 0#8
  | .rejPad4 => magic = 0xCC#8 ∧ options = 0#8 ∧ tail ≠ 0#32
  | .rejPad2 => magic = 0xCC#8 ∧ options = 0x40#8 ∧ ¬(tail.extractLsb' 8 8 = 0#8 ∧ tail.extractLsb' 0 8 = 0#8)
  | .rejPadbits => magic = 0xCC#8 ∧ options &&& 0x80#8 = 0#8 ∧ options ≠ 0#8 ∧ options ≠ 0x40#8
  | .rejMagic => magic ≠ 0xCC#8

section

variable (magic options : Byte) (length : Word16) (tail : Word32)

/-- The first-match table gives a class exactly under its condition (R69). -/
theorem classOf_headerWord_eq_iff (c : HeaderClass) :
    classOf (headerWord magic options length tail) = c ↔ exactCondition magic options tail c := by
  rw [classOf_headerWord]
  cases c <;> simp only [exactCondition]
  all_goals split_ifs <;> simp_all

/-- The exact patterns of a class cover a word exactly under its condition (R70). -/
theorem exactPatterns_cover_iff (c : HeaderClass) :
    (exactPatterns c).any (fun p => p.covers (headerWord magic options length tail)) = true ↔
      exactCondition magic options tail c := by
  have word := headerWord_bytes magic options length tail
  cases c <;> simp only [exactCondition, exactPatterns]
  case frmPlain =>
    have bytes : (⟨0xFFFF0000FFFFFFFF, 0xCC00000000000000⟩ : Pattern) =
        ⟨packHeader ⟨0xFF, 0xFF, 0, 0, 0xFF, 0xFF, 0xFF, 0xFF⟩, packHeader ⟨0xCC, 0, 0, 0, 0, 0, 0, 0⟩⟩ := by decide
    rw [List.any_cons, List.any_nil, Bool.or_false, bytes, word, Pattern.covers_packHeader, tail_eq_zero]
    simp only [BitVec.ofNat_eq_ofNat, byte_and_ff, BitVec.and_zero, true_and]
  case frmSens =>
    have bytes : (⟨0xFFFF00000000FFFF, 0xCC40000000000000⟩ : Pattern) =
        ⟨packHeader ⟨0xFF, 0xFF, 0, 0, 0, 0, 0xFF, 0xFF⟩, packHeader ⟨0xCC, 0x40, 0, 0, 0, 0, 0, 0⟩⟩ := by decide
    rw [List.any_cons, List.any_nil, Bool.or_false, bytes, word, Pattern.covers_packHeader]
    simp only [BitVec.ofNat_eq_ofNat, byte_and_ff, BitVec.and_zero, true_and]
  case rejRsvd =>
    have bit7 : ∀ o : Byte, o &&& 0x80#8 = 0x80#8 ↔ o &&& 0x80#8 ≠ 0#8 := by decide
    rw [List.any_cons, List.any_nil, Bool.or_false, ← bit7]
    exact covers_reservedBit magic options length tail 0x80
  case rejPad4 =>
    rw [firstDifference_covers_iff 0 _ 0 32 (by decide) _ (by decide), headerWord_tail, ← and_assoc]
    exact and_congr (covers_options magic options length tail 0) (by rfl)
  case rejPad2 =>
    have low : (headerWord magic options length tail).extractLsb' 0 16 = tail.extractLsb' 0 16 := by
      have halves := headerWord_tailHalves magic options length (tail.extractLsb' 16 16) (tail.extractLsb' 0 16)
      rw [tail_halves] at halves
      exact halves.2
    have zero : (tail.extractLsb' 8 8 = 0#8 ∧ tail.extractLsb' 0 8 = 0#8) ↔ tail.extractLsb' 0 16 = 0#16 := by
      have bytes := tail_low_eq_zero (tail.extractLsb' 16 16) (tail.extractLsb' 0 16)
      rwa [tail_halves] at bytes
    rw [firstDifference_covers_iff 0 _ 0 16 (by decide) _ (by decide), low, zero, ← and_assoc]
    exact and_congr (covers_options magic options length tail 0x40) (by rfl)
  case rejPadbits =>
    have padding : ∀ o : Byte,
        o &&& 0x80#8 = 0#8 ∧ o ≠ 0#8 ∧ o ≠ 0x40#8 ↔ o &&& 0x80#8 = 0#8 ∧ o.extractLsb' 0 6 ≠ 0#6 := by decide
    rw [firstDifference_covers_iff 0 _ 48 6 (by decide) _ (by decide), (headerWord_optionBits _ _ _ _).2.2, padding,
      ← and_assoc]
    exact and_congr (covers_reservedBit magic options length tail 0) (by rfl)
  case rejMagic =>
    have all : Pattern.covers ⟨0, 0⟩ (headerWord magic options length tail) = true := by simp [Pattern.covers]
    rw [firstDifference_covers_iff 0xCC00000000000000 _ 56 8 (by decide) _ (by decide), headerWord_magic]
    exact (and_iff_right all).trans (by rfl)

end

/-- Settles O21: both sides are the class's condition on the four parts of the word. -/
theorem exactPatternsDecideTheClass : Obligations.ExactPatternsDecideTheClass := by
  unfold Obligations.ExactPatternsDecideTheClass
  intro w c
  rw [← headerWord_parts w, Bool.eq_iff_iff, beq_iff_eq, exactPatterns_cover_iff, classOf_headerWord_eq_iff]

/-! ### Fixed words and the disjoint patterns -/

/-- Settles O22: 65 patterns, compared two by two. -/
theorem exactPatternsAreDisjoint : Obligations.ExactPatternsAreDisjoint := by
  unfold Obligations.ExactPatternsAreDisjoint
  decide

/-- Settles O23: nine fixed words, evaluated. -/
theorem sampleWordsDecode : Obligations.SampleWordsDecode := by
  unfold Obligations.SampleWordsDecode
  decide

/-- Settles O24: the first pattern is the word the encoder writes for the byte. -/
theorem beatPatternsDecode : Obligations.BeatPatternsDecode := by
  unfold Obligations.BeatPatternsDecode
  exact fun b => ⟨decodeBeat_byteWord b, decodeBeat_eosBit b⟩

end Sys2Proof

namespace Sys2Proof.Machine

/-! ### The accepted headers (R125) -/

/-- The plain shape passes the five checks (R125). -/
theorem hdrParse_plainShape (len : Word16) : hdrParse ⟨0xCC, 0x00, hi8 len, lo8 len, 0, 0, 0, 0⟩ = .ok len false := by
  simp [hdrParse_bytes, hdrLen]

/-- The sensitive shape passes the five checks (R125). -/
theorem hdrParse_sensShape (len claimed : Word16) :
    hdrParse ⟨0xCC, 0x40, hi8 len, lo8 len, hi8 claimed, lo8 claimed, 0, 0⟩ = .ok len true := by
  simp [hdrParse_bytes, hdrLen]

/-- Settles O16: the five checks as a case split on the bytes leave two accepted shapes, whose other bytes are those of
the length and of the claimed checksum. -/
theorem acceptedHeadersHaveTwoShapes : Obligations.AcceptedHeadersHaveTwoShapes := by
  unfold Obligations.AcceptedHeadersHaveTwoShapes
  intro h len sens
  constructor
  · intro ok
    obtain ⟨rfl, -⟩ := hdrParse_ok h len sens ok
    rcases h with ⟨b0, b1, b2, b3, b4, b5, b6, b7⟩
    simp only [hdrParse_bytes] at ok
    split_ifs at ok with magic options tail sensitive pad
    · obtain ⟨rfl, rfl, rfl, rfl⟩ := tail
      cases ok
      exact .inl ⟨rfl, by simp only [magic, options, hdrLen, hi8_be16, lo8_be16, BitVec.ofNat_eq_ofNat]⟩
    · obtain ⟨rfl, rfl⟩ := pad
      cases ok
      exact .inr ⟨rfl, by simp only [magic, sensitive, hdrLen, hdrClaimed, hi8_be16, lo8_be16, BitVec.ofNat_eq_ofNat]⟩
  · rintro (⟨rfl, shape⟩ | ⟨rfl, shape⟩)
    · rw [shape, hdrParse_plainShape]
    · rw [shape, hdrParse_sensShape]

end Sys2Proof.Machine

/-! PROOFS. The checksum unit (spec/40_checksum.md): the sum, the fold and the checksum as arithmetic modulo 65535,
absorbing byte by byte, the laws of R101, the detection of a single-bit change, and the statements about them. -/

namespace Sys2Proof.Machine

/-! ### The sum (R91, R95, R96) -/

/-- The sum splits at an even offset (R101 law 2). -/
theorem csumSum_append_of_even (x y : List Byte) (even : x.length % 2 = 0) :
    csumSum (x ++ y) = csumSum x + csumSum y := by
  induction x using csumSum.induct with
  | case1 => simp [csumSum]
  | case2 hi => simp at even
  | case3 hi lo rest ih =>
    have even_rest : rest.length % 2 = 0 := by
      simp only [List.length_cons] at even
      omega
    simp only [List.cons_append, csumSum, ih even_rest, Nat.add_assoc]

/-- The sum by words (R91). -/
theorem csumSum_eq_sum_words (data : List Byte) :
    csumSum data = ((List.range ((data.length + 1) / 2)).map fun j =>
      (data.getD (2 * j) 0).toNat * 256 + (data.getD (2 * j + 1) 0).toNat).sum := by
  induction data using csumSum.induct with
  | case1 => rfl
  | case2 hi => simp [csumSum]
  | case3 hi lo rest ih =>
    have words : ((hi :: lo :: rest).length + 1) / 2 = (rest.length + 1) / 2 + 1 := by
      simp only [List.length_cons]
      omega
    rw [words, List.range_succ_eq_map, csumSum, ih, be16_toNat]
    simp [Nat.mul_add, Function.comp_def]

/-- The sum by bytes: weight 256 at even and 1 at odd places (R91, the closed form). -/
theorem csumSum_eq_sum_bytes (data : List Byte) :
    csumSum data = ((List.range data.length).map fun i =>
      (data.getD i 0).toNat * (if i % 2 = 0 then 256 else 1)).sum := by
  induction data using List.reverseRecOn with
  | nil => rfl
  | append_singleton data b ih =>
    have before : (List.range data.length).map (fun i =>
        ((data ++ [b]).getD i 0).toNat * (if i % 2 = 0 then 256 else 1)) =
        (List.range data.length).map fun i => (data.getD i 0).toNat * (if i % 2 = 0 then 256 else 1) := by
      refine List.map_congr_left fun i inside => ?_
      rw [List.getD_append _ _ _ _ (List.mem_range.mp inside)]
    rw [csumSum_snoc, List.length_append, List.length_singleton, List.range_succ, List.map_append, List.sum_append,
      before, ← ih]
    simp

/-- The sum is 0 only of zero bytes (R93). -/
theorem csumSum_eq_zero_iff (data : List Byte) : csumSum data = 0 ↔ ∀ b ∈ data, b = 0 := by
  have zero : ∀ b : Byte, b.toNat = 0 ↔ b = 0 := fun b => (not_iff_not.mp (byte_ne_zero_iff b)).symm
  induction data using csumSum.induct with
  | case1 => simp [csumSum]
  | case2 hi => simpa [csumSum] using zero hi
  | case3 hi lo rest ih =>
    have parts : csumSum (hi :: lo :: rest) = 0 ↔ hi.toNat = 0 ∧ lo.toNat = 0 ∧ csumSum rest = 0 := by
      rw [csumSum, be16_toNat]
      omega
    simp only [parts, zero, ih, List.forall_mem_cons]

/-- A zero byte at the end adds nothing (R93, R96). -/
theorem csumSum_append_zero (data : List Byte) : csumSum (data ++ [0]) = csumSum data := by
  simp [csumSum_snoc]

/-- Replacing one byte exchanges its weighted value (R91). -/
theorem csumSum_set (data : List Byte) (j : Nat) (b : Byte) (inside : j < data.length) :
    csumSum (data.set j b) + (data.getD j 0).toNat * (if j % 2 = 0 then 256 else 1) =
      csumSum data + b.toNat * (if j % 2 = 0 then 256 else 1) := by
  induction data using List.reverseRecOn with
  | nil => simp at inside
  | append_singleton data c ih =>
    by_cases last : j < data.length
    · rw [List.set_append_left _ _ last, List.getD_append _ _ _ _ last, csumSum_snoc, csumSum_snoc, List.length_set]
      have := ih last
      omega
    · have at_end : j = data.length := by
        rw [List.length_append, List.length_singleton] at inside
        omega
      subst at_end
      rw [List.set_append_right _ _ (Nat.le_refl _)]
      simp [csumSum_snoc]
      omega

/-! ### The fold (R92) -/

/-- The representative modulo 65535 that the fold reaches: 0 for 0, else in 1 to 65535. -/
def foldValue (n : Nat) : Nat := if n = 0 then 0 else (n - 1) % 65535 + 1

/-- One pass keeps the representative. -/
theorem foldValue_pass (n : Nat) : foldValue (n % 65536 + n / 65536) = foldValue n := by
  unfold foldValue
  split_ifs <;> omega

theorem foldValue_of_lt {n : Nat} (small : n < 65536) : foldValue n = n := by
  unfold foldValue
  split_ifs <;> omega

/-- With a pass for each unit of `n` the loop reaches the representative. -/
theorem foldLoop_eq_foldValue (fuel n : Nat) (enough : n ≤ fuel) : foldLoop fuel n = foldValue n := by
  induction fuel generalizing n with
  | zero => rw [Nat.le_zero.mp enough]; rfl
  | succ fuel ih =>
    by_cases small : n < 65536
    · rw [foldLoop_of_lt _ _ small, foldValue_of_lt small]
    · rw [foldLoop_of_ge _ _ (Nat.le_of_not_lt small), ih _ (by omega), foldValue_pass]

/-- The fold is the representative (R92, the closed form). -/
theorem csumFold_toNat (n : Nat) : (csumFold n).toNat = if n = 0 then 0 else (n - 1) % 65535 + 1 := by
  rw [csumFold, foldLoop_eq_foldValue n n (Nat.le_refl n), BitVec.toNat_ofNat, foldValue]
  apply Nat.mod_eq_of_lt
  split_ifs <;> omega

/-- Two positive numbers fold to the same exactly when they agree modulo 65535. -/
theorem csumFold_eq_iff {m n : Nat} (posM : 0 < m) (posN : 0 < n) :
    csumFold m = csumFold n ↔ m % 65535 = n % 65535 := by
  rw [← BitVec.toNat_inj, csumFold_toNat, csumFold_toNat, if_neg (by omega), if_neg (by omega)]
  omega

/-! ### The checksum (R93) -/

theorem csumCompute_toNat (data : List Byte) : (csumCompute data).toNat = 65535 - (csumFold (csumSum data)).toNat := by
  rw [csumCompute, complement16_toNat]

/-- Two sequences have one checksum exactly when their sums fold to the same. -/
theorem csumCompute_eq_iff (x y : List Byte) :
    csumCompute x = csumCompute y ↔ csumFold (csumSum x) = csumFold (csumSum y) := by
  simp only [csumCompute, BitVec.not_inj]

theorem csumCompute_eq_zero_iff (data : List Byte) :
    csumCompute data = 0 ↔ 0 < csumSum data ∧ csumSum data % 65535 = 0 := by
  rw [← BitVec.toNat_inj, csumCompute_toNat, csumFold_toNat]
  change 65535 - _ = 0 ↔ _
  by_cases zero : csumSum data = 0
  · simp [zero]
  · rw [if_neg zero]
    omega

theorem csumCompute_eq_ones_iff (data : List Byte) : csumCompute data = 0xFFFF ↔ csumSum data = 0 := by
  rw [← BitVec.toNat_inj, csumCompute_toNat, csumFold_toNat]
  change 65535 - _ = 65535 ↔ _
  by_cases zero : csumSum data = 0
  · simp only [zero, if_true]
  · rw [if_neg zero]
    omega

/-- The covered bytes of a frame are never all 0: the placeholder is among them (R94). -/
theorem csumSum_csumCover_pos (h : HeaderBytes) (body : List Byte) : 0 < csumSum (csumCover h body) := by
  rw [csumSum_csumCover]
  omega

/-! ### Absorbing byte by byte (R98, R99) -/

/-- Absorbing one more byte goes from the sum and phase of a sequence to those of the longer one (R99). -/
theorem csumAbsorb_snoc (data : List Byte) (b : Byte) :
    csumAbsorb (BitVec.ofNat 32 (csumSum data)) (phaseAfter data.length) b =
      (BitVec.ofNat 32 (csumSum (data ++ [b])), phaseAfter (data ++ [b]).length) := by
  have phase := phaseAfter_eq_zero data.length
  rw [csumAbsorb_eq, nextPhase_phaseAfter, csumSum_snoc, BitVec.ofNat_add, List.length_append, List.length_singleton]
  simp only [phase]

/-- The accumulator and the phase after a sequence, from `(0, 0)`. -/
def absorbAll (data : List Byte) : Word32 × BitVec 1 := data.foldl (fun q a => csumAbsorb q.1 q.2 a) (0, 0)

/-- They are the sum modulo 2^32 and the phase of the length. -/
theorem absorbAll_eq (data : List Byte) :
    absorbAll data = (BitVec.ofNat 32 (csumSum data), phaseAfter data.length) := by
  induction data using List.reverseRecOn with
  | nil => rfl
  | append_singleton data b ih =>
    rw [absorbAll, List.foldl_append, ← absorbAll, ih, List.foldl_cons, List.foldl_nil, csumAbsorb_snoc]

/-! ### The range of the sum (R95) -/

theorem csumSum_lt_of_length_le (data : List Byte) (short : data.length ≤ 131074) : csumSum data < 2 ^ 32 := by
  have := csumSum_le data
  omega

/-- The covered bytes of an accepted frame (R95): the options byte is at most `40` and header bytes 6 and 7 are 0. -/
theorem csumSum_accepted_le (h : HeaderBytes) (body : List Byte) (len : Word16) (sens : Bool)
    (ok : hdrParse h = .ok len sens) (short : body.length ≤ len.toNat) : csumSum (csumCover h body) ≤ Config.accMax := by
  have bodySum := csumSum_le body
  have lenField := len.isLt
  have shape := (acceptedHeadersHaveTwoShapes h len sens).mp ok
  have bytes : (be16 h.b0 h.b1).toNat ≤ 0xCC40 ∧ (be16 h.b6 h.b7).toNat = 0 := by
    rcases shape with ⟨-, shape⟩ | ⟨-, shape⟩
    · rw [shape]
      exact ⟨(by decide : (be16 0xCC 0).toNat ≤ 0xCC40), (by decide : (be16 0 0).toNat = 0)⟩
    · rw [shape]
      exact ⟨(by decide : (be16 0xCC 0x40).toNat ≤ 0xCC40), (by decide : (be16 0 0).toNat = 0)⟩
  have lenBytes := (be16 h.b2 h.b3).isLt
  rw [csumSum_csumCover, Config.accMax]
  omega

/-! ### A single-bit change (R103) -/

/-- Flipping bit `k` of a byte adds or takes away `2 ^ k`. -/
theorem flipBit_toNat (b : Byte) (k : Nat) (inByte : k < 8) :
    (b ^^^ (1 <<< k)).toNat = b.toNat + 2 ^ k ∨ (b ^^^ (1 <<< k)).toNat + 2 ^ k = b.toNat := by
  interval_cases k <;> revert b <;> decide

/-- Covering after a change of a header byte outside the checksum field is a change of the covered byte (R94). -/
theorem csumCover_set_header (h : HeaderBytes) (body : List Byte) (i : BitVec 3) (b : Byte) (not4 : i ≠ 4)
    (not5 : i ≠ 5) :
    csumCover (h.set i b) body = (csumCover h body).set i.toNat b ∧ (csumCover h body).getD i.toNat 0 = h.get i := by
  rcases i with ⟨⟨i, hi⟩⟩
  have : i < 8 := hi
  interval_cases i
  · exact ⟨rfl, rfl⟩
  · exact ⟨rfl, rfl⟩
  · exact ⟨rfl, rfl⟩
  · exact ⟨rfl, rfl⟩
  · exact absurd rfl not4
  · exact absurd rfl not5
  · exact ⟨rfl, rfl⟩
  · exact ⟨rfl, rfl⟩

/-- A change of one bit of one covered byte changes the checksum: the sum moves by at most 32768. -/
theorem csumCompute_flip_ne (data : List Byte) (j k : Nat) (inside : j < data.length) (inByte : k < 8)
    (pos : 0 < csumSum data) (pos' : 0 < csumSum (data.set j (data.getD j 0 ^^^ (1 <<< k)))) :
    csumCompute (data.set j (data.getD j 0 ^^^ (1 <<< k))) ≠ csumCompute data := by
  rw [Ne, csumCompute_eq_iff, csumFold_eq_iff pos' pos]
  have exchanged := csumSum_set data j (data.getD j 0 ^^^ (1 <<< k)) inside
  have powLo : 1 ≤ 2 ^ k := Nat.one_le_two_pow
  have powHi : 2 ^ k ≤ 2 ^ 7 := Nat.pow_le_pow_right (by decide) (by omega)
  rcases flipBit_toNat (data.getD j 0) k inByte with moved | moved <;>
  · split_ifs at exchanged <;> omega

/-! ### The statements of the family -/

/-- Settles O1: by words along the recursion of the sum, by bytes from the end of the sequence. -/
theorem csumSumDeliversTheSumOfWords : Obligations.CsumSumDeliversTheSumOfWords := by
  unfold Obligations.CsumSumDeliversTheSumOfWords
  intro data s
  rw [← csumSum_eq_sum_words]
  exact ⟨rfl, csumSum_eq_sum_bytes data⟩

/-- Settles O2: every clause is arithmetic on the closed form. -/
theorem csumFoldRunsPassesUntilNoCarry : Obligations.CsumFoldRunsPassesUntilNoCarry := by
  unfold Obligations.CsumFoldRunsPassesUntilNoCarry
  intro n s
  refine ⟨rfl, fun small => ?_, fun large => ⟨by omega, ?_⟩, fun _ => by omega, csumFold_toNat n⟩
  · rw [csumFold_toNat]
    exact foldValue_of_lt small
  · rw [csumFold_eq_iff (by omega) (by omega)]
    omega

/-- Settles O3: the complement of the closed form of the fold; trailing zero bytes leave the sum as it is. -/
theorem csumComputeDeliversComplementOfFold : Obligations.CsumComputeDeliversComplementOfFold := by
  unfold Obligations.CsumComputeDeliversComplementOfFold
  intro data s
  have one_zero : csumCompute (data ++ [0]) = csumCompute data := by
    rw [csumCompute, csumSum_append_zero, ← csumCompute]
  have two_zeros : data ++ [0, 0] = (data ++ [0]) ++ [0] := by rw [List.append_assoc]; rfl
  refine ⟨rfl, csumCompute_toNat data, csumCompute_eq_zero_iff data, ?_, fun _ => one_zero, ?_⟩
  · rw [csumCompute_eq_ones_iff, csumSum_eq_zero_iff]
  · rw [two_zeros, csumCompute, csumSum_append_zero, ← csumCompute, one_zero]

/-- Settles O4: by the unit's definition. -/
theorem csumCoverReplacesChecksumField : Obligations.CsumCoverReplacesChecksumField := by
  unfold Obligations.CsumCoverReplacesChecksumField
  exact fun _ _ _ => rfl

/-- Settles O5: header bytes 4 and 5 are not covered, and only a sum of 0 would give `0xFFFF`. -/
theorem csumVerifyComparesSixteenBits : Obligations.CsumVerifyComparesSixteenBits := by
  unfold Obligations.CsumVerifyComparesSixteenBits
  refine fun h body claimed s => ⟨rfl, fun _ _ => rfl, ?_⟩
  rw [csumVerify, beq_eq_false_iff_ne, Ne, csumCompute_eq_ones_iff]
  exact (csumSum_csumCover_pos h body).ne'

/-- Settles O6: the byte's weight and the toggled phase, by cases on the phase. -/
theorem csumAbsorbAddsWeightedByte : Obligations.CsumAbsorbAddsWeightedByte := by
  unfold Obligations.CsumAbsorbAddsWeightedByte
  intro acc ph a s
  have absorbed : exec (.csumAbsorb acc ph a) s =
      .next { s with result := .absorbed (csumAbsorb acc ph a).1 (csumAbsorb acc ph a).2 } := rfl
  rw [absorbed, csumAbsorb_by_phase, BitVec.ofNat_add, BitVec.ofNat_toNat, BitVec.setWidth_eq]

/-- Settles O7: the accumulator is the sum modulo 2^32, which is the sum when that fits. -/
theorem absorbingAllBytesGivesTheSum : Obligations.AbsorbingAllBytesGivesTheSum := by
  unfold Obligations.AbsorbingAllBytesGivesTheSum
  intro data fits p
  have pair : p = (BitVec.ofNat 32 (csumSum data), phaseAfter data.length) := absorbAll_eq data
  have acc : p.1.toNat = csumSum data := by
    rw [pair, BitVec.toNat_ofNat]
    exact Nat.mod_eq_of_lt fits
  refine ⟨acc, ?_, by rw [acc, csumCompute]⟩
  rw [pair, phaseAfter, BitVec.toNat_ofNat]

/-- Settles O8: the bound on the sum by its length, and the shapes of the accepted headers. -/
theorem sumNeverLeavesTheAccumulator : Obligations.SumNeverLeavesTheAccumulator := by
  unfold Obligations.SumNeverLeavesTheAccumulator
  exact ⟨csumSum_lt_of_length_le, csumSum_accepted_le⟩

/-- Settles O9, by the recursion of the sum on the first part. -/
theorem sumSplitsAtEvenOffset : Obligations.SumSplitsAtEvenOffset := by
  unfold Obligations.SumSplitsAtEvenOffset
  exact csumSum_append_of_even

/-- Settles O10: the fold keeps the representative modulo 65535, and 0 only for 0. -/
theorem foldEarlyOrLate : Obligations.FoldEarlyOrLate := by
  unfold Obligations.FoldEarlyOrLate
  intro a b
  have early := csumFold_toNat a
  by_cases zero : a = 0
  · rw [early, if_pos zero, zero]
  · rw [if_neg zero] at early
    rw [csumFold_eq_iff (by omega) (by omega)]
    omega

/-- The sum of words laid out as bytes is the sum of the words (R91). -/
theorem csumSum_flatMap_words (v : List Word16) :
    csumSum (v.flatMap fun x => [hi8 x, lo8 x]) = (v.map BitVec.toNat).sum := by
  induction v with
  | nil => rfl
  | cons x v ih =>
    simp only [List.flatMap_cons, List.cons_append, List.nil_append, csumSum, be16_hi8_lo8, ih, List.map_cons,
      List.sum_cons]

/-- Settles O11: a sum does not depend on the order of its words. -/
theorem wordOrderDoesNotMatter : Obligations.WordOrderDoesNotMatter := by
  unfold Obligations.WordOrderDoesNotMatter
  intro v w perm
  rw [csumCompute, csumCompute, csumSum_flatMap_words, csumSum_flatMap_words, (perm.map BitVec.toNat).sum_eq]

/-- Settles O12: the checksum completes the sum to a positive multiple of 65535. -/
theorem checksumAppendedGivesZero : Obligations.ChecksumAppendedGivesZero := by
  unfold Obligations.ChecksumAppendedGivesZero
  intro x even
  have appended : csumSum [hi8 (csumCompute x), lo8 (csumCompute x)] = (csumCompute x).toNat := by
    simp only [csumSum, be16_hi8_lo8, Nat.add_zero]
  rw [csumCompute_eq_zero_iff, csumSum_append_of_even x _ even, appended, csumCompute_toNat, csumFold_toNat]
  split_ifs <;> omega

/-- Settles O13: the changed byte is one covered byte, and the claimed checksum is the old one. -/
theorem singleBitFlipIsDetected : Obligations.SingleBitFlipIsDetected := by
  unfold Obligations.SingleBitFlipIsDetected
  intro h body k inByte
  have pos := csumSum_csumCover_pos h body
  constructor
  · intro i not4 not5
    obtain ⟨covered, byte⟩ := csumCover_set_header h body i (h.get i ^^^ (1 <<< k)) not4 not5
    have inside : i.toNat < (csumCover h body).length := by
      rw [csumCover_length]
      have := i.isLt
      omega
    have pos' := csumSum_csumCover_pos (h.set i (h.get i ^^^ (1 <<< k))) body
    rw [csumVerify, beq_eq_false_iff_ne, covered, ← byte]
    rw [covered, ← byte] at pos'
    exact csumCompute_flip_ne _ _ k inside inByte pos pos'
  · intro j inBody
    have covered : csumCover h (body.set j (body.getD j 0 ^^^ (1 <<< k))) =
        (csumCover h body).set (j + 8) ((csumCover h body).getD (j + 8) 0 ^^^ (1 <<< k)) := rfl
    have inside : j + 8 < (csumCover h body).length := by
      rw [csumCover_length]
      omega
    have pos' := csumSum_csumCover_pos h (body.set j (body.getD j 0 ^^^ (1 <<< k)))
    rw [csumVerify, beq_eq_false_iff_ne, covered]
    rw [covered] at pos'
    exact csumCompute_flip_ne _ _ k inside inByte pos pos'

end Sys2Proof.Machine

/-! PROOFS. What single instructions and single steps do: the functional units, the closed block, the events of a beat,
a whole frame as one instruction (spec/42_sequencer.md section 2), the edges a step takes (spec/30_encoding.md section 4),
and the statements about them. -/

namespace Sys2Proof

/-! ### The bytes of an encoded word (R61) -/

theorem unpackHeader_headerWord (magic options : Byte) (length : Word16) (tail : Word32) :
    unpackHeader (headerWord magic options length tail) =
      ⟨magic, options, hi8 length, lo8 length, tail.extractLsb' 24 8, tail.extractLsb' 16 8, tail.extractLsb' 8 8,
        tail.extractLsb' 0 8⟩ := by
  rw [headerWord_bytes, unpackHeader_packHeader]

theorem unpackHeader_plainWord (length : Word16) :
    unpackHeader (plainWord length) = ⟨0xCC, 0x00, hi8 length, lo8 length, 0, 0, 0, 0⟩ := by
  rw [plainWord, unpackHeader_headerWord]
  rfl

theorem unpackHeader_sensWord (length claimed : Word16) :
    unpackHeader (sensWord length claimed) = ⟨0xCC, 0x40, hi8 length, lo8 length, hi8 claimed, lo8 claimed, 0, 0⟩ := by
  have bytes : (claimed ++ (0 : Word16) : Word32).extractLsb' 24 8 = hi8 claimed ∧
      (claimed ++ (0 : Word16) : Word32).extractLsb' 16 8 = lo8 claimed := by
    constructor <;>
    · apply BitVec.eq_of_getLsbD_eq
      intro i inside
      simp only [hi8, lo8, BitVec.getLsbD_append, BitVec.getLsbD_extractLsb']
      interval_cases i <;> simp
  obtain ⟨pad_high, pad_low⟩ := (tail_low_eq_zero claimed 0).mpr rfl
  rw [sensWord, unpackHeader_headerWord, bytes.1, bytes.2, pad_high, pad_low]
  rfl

/-- The length of an encoded header (R64, R122). -/
theorem hdrLen_headerWord (magic options : Byte) (length : Word16) (tail : Word32) :
    Machine.hdrLen (unpackHeader (headerWord magic options length tail)) = length := by
  rw [unpackHeader_headerWord, Machine.hdrLen, be16_hi8_lo8]

end Sys2Proof

namespace Sys2Proof.Machine

/-! ### The functional units and the closed block -/

/-- Settles O17: each unit delivers its function's value. -/
theorem functionalUnitsArePure : Obligations.FunctionalUnitsArePure := by
  unfold Obligations.FunctionalUnitsArePure
  intro i func
  cases i
  case csumSum data => exact ⟨.sum (csumSum data), fun _ => rfl⟩
  case csumFold sum => exact ⟨.word (csumFold sum), fun _ => rfl⟩
  case csumCompute data => exact ⟨.word (csumCompute data), fun _ => rfl⟩
  case csumCover h body => exact ⟨.bytes (csumCover h body), fun _ => rfl⟩
  case csumVerify h body claimed => exact ⟨.flag (csumVerify h body claimed), fun _ => rfl⟩
  case csumAbsorb acc ph a => exact ⟨.absorbed (csumAbsorb acc ph a).1 (csumAbsorb acc ph a).2, fun _ => rfl⟩
  case hdrParse h => exact ⟨.parsed (hdrParse h), exec_hdrParse h⟩
  case hdrLen h => exact ⟨.word (hdrLen h), exec_hdrLen h⟩
  case hdrSens h => exact ⟨.flag (hdrSens h), exec_hdrSens h⟩
  case hdrClaimed h => exact ⟨.word (hdrClaimed h), exec_hdrClaimed h⟩
  all_goals cases func

/-- Away from a frame boundary a header class is its eight bytes (R51). -/
theorem runFrame_of_not_boundary {s : State} (h : HeaderBytes) (k : BitVec 3) (event : List Byte → Event)
    (inside : s.atBoundary = false) : runFrame h k event s = deliverBytes h.toList s := by
  rw [runFrame, inside, if_neg Bool.false_ne_true]

theorem runFrame_of_closed {s : State} (h : HeaderBytes) (k : BitVec 3) (event : List Byte → Event)
    (closed : s.st = .closed) :
    runFrame h k event s = .fault .beatNotAccepted := by
  rw [runFrame_of_not_boundary h k event (atBoundary_of_closed s closed), deliverBytes_closed h s closed]

theorem byteBeat_of_closed {s : State} (b : Byte) (closed : s.st = .closed) :
    byteBeat b s = .fault .beatNotAccepted := by
  simp only [byteBeat, closed]

theorem execEos_of_closed {s : State} (closed : s.st = .closed) : execEos s = .fault .beatNotAccepted := by
  simp only [execEos, closed]

/-- Every header class is a frame run (R161 to R167). -/
theorem exec_of_h64 (i : Instr) (h64 : i.format = .h64) : ∃ h k event, ∀ s, exec i s = runFrame h k event s := by
  cases i
  case frmPlain => exact ⟨_, _, _, fun s => by rw [exec, execFrmPlain]⟩
  case frmSens => exact ⟨_, _, _, fun s => by rw [exec, execFrmSens]⟩
  case rejRsvd => exact ⟨_, _, _, fun s => by rw [exec, execRejRsvd, runRejected]⟩
  case rejPad4 => exact ⟨_, _, _, fun s => by rw [exec, execRejPad4, runRejected]⟩
  case rejPad2 => exact ⟨_, _, _, fun s => by rw [exec, execRejPad2, runRejected]⟩
  case rejPadbits => exact ⟨_, _, _, fun s => by rw [exec, execRejPadbits, runRejected]⟩
  case rejMagic => exact ⟨_, _, _, fun s => by rw [exec, execRejMagic, runRejected]⟩
  all_goals cases h64

/-- Settles O31: a beat by its own rule, a header class because its first byte is not accepted. -/
theorem closedAcceptsNothing : Obligations.ClosedAcceptsNothing := by
  unfold Obligations.ClosedAcceptsNothing
  intro i s notFunc closed
  cases format : i.format with
  | h64 =>
    obtain ⟨h, k, event, is⟩ := exec_of_h64 i format
    rw [is, runFrame_of_closed h k event closed]
  | b9 =>
    cases i
    case byte b => exact byteBeat_of_closed b closed
    case eos => exact execEos_of_closed closed
    all_goals cases format
  | func => exact absurd format notFunc

/-! ### The event of a step (R48, R74) -/

/-- Nothing was emitted and the port is empty. -/
def Silent (s t : State) : Prop := t.events = s.events ∧ t.evValid = false ∧ t.ev = Event.zero

/-- Exactly the event on the port was emitted. -/
def Emitted (s t : State) : Prop := t.evValid = true ∧ t.events = s.events ++ [t.ev]

/-- A byte emits nothing, or it emits one event and ends its frame (R152 to R155, R160). -/
theorem byteBeat_silent_or_ends {s t : State} {b : Byte} (next : byteBeat b s = .next t) :
    Silent s t ∨ t.atBoundary = true ∧ Emitted s t := by
  rcases byteBeat_cases b s with ⟨-, -, is⟩ | ⟨-, -, is⟩ | ⟨-, is⟩ | ⟨-, is⟩ | ⟨-, is⟩ <;>
    rw [is] at next <;> cases next
  · exact .inl ⟨rfl, rfl, rfl⟩
  · simp only [completeHeader]
    split
    · exact .inr ⟨rfl, rfl, rfl⟩
    · split <;> exact .inl ⟨rfl, rfl, rfl⟩
  · simp only [bodyByte]
    split
    · exact .inr ⟨rfl, rfl, rfl⟩
    · exact .inl ⟨rfl, rfl, rfl⟩
  · simp only [skipByte]
    split
    · exact .inr ⟨rfl, rfl, rfl⟩
    · exact .inl ⟨rfl, rfl, rfl⟩

/-- A frame left open emits nothing (R153 to R155). -/
theorem openFrame_silent (s : State) (h : HeaderBytes) (k : BitVec 3) (body : List Byte) (rest : List Edge) :
    Silent s (s.openFrame h k body rest) := by
  simp only [State.openFrame]
  split <;> exact ⟨rfl, rfl, rfl⟩

/-- A step emits nothing, or exactly the event it shows (R48 item 4, R74). -/
theorem step_silent_or_emitted {s t : State} (next : step s = .next t) : Silent s t ∨ Emitted s t := by
  rcases step_cases s with ⟨es, is⟩ | ⟨es, is⟩ | ⟨-, is⟩ | ⟨es, b, -, is⟩ | ⟨es, -, is⟩ | ⟨es, h, -, boundary, is⟩ <;>
    rw [is] at next
  · cases next
    exact .inl ⟨rfl, rfl, rfl⟩
  · cases next
    exact .inl ⟨rfl, rfl, rfl⟩
  · cases next
  · exact (byteBeat_silent_or_ends next).imp_right And.right
  · cases next
    exact .inr ⟨rfl, rfl⟩
  · rcases runFrame_cases h (parseCode (hdrParse h)) (verdict h) (s.withInput es) with
      ⟨-, body, rest, -, ⟨-, is⟩ | ⟨-, is⟩⟩ | ⟨inside, -⟩
    · rw [is] at next
      cases next
      exact .inr ⟨rfl, rfl⟩
    · rw [is] at next
      cases next
      exact .inl (openFrame_silent (s.withInput es) h _ body rest)
    · rw [State.withInput_atBoundary, boundary] at inside
      cases inside

/-- Settles O32: a silent byte has the events of before. -/
theorem byteEventMarksAFrameBoundary : Obligations.ByteEventMarksAFrameBoundary := by
  unfold Obligations.ByteEventMarksAFrameBoundary
  intro s t b next changed
  rcases byteBeat_silent_or_ends next with ⟨same, -⟩ | ends
  · exact absurd same changed
  · exact ends

/-- Settles O50: either nothing is emitted or the event on the port. -/
theorem atMostOneEventPerStep : Obligations.AtMostOneEventPerStep := by
  unfold Obligations.AtMostOneEventPerStep
  exact fun s t next => step_silent_or_emitted next

/-! ### A whole frame as one instruction (R161 to R167) -/

/-- At a frame boundary the end of a frame leaves every register but the latch as it was. -/
theorem completeFrame_of_boundary {s : State} (boundary : s.atBoundary = true) (h : HeaderBytes) (body : List Byte)
    (rest : List Edge) (e : Event) :
    s.completeFrame h body rest e =
      { s with
        hdr := h, input := rest, pos := s.pos + (8 + body.length), evValid := true, ev := e
        events := s.events ++ [e] } := by
  obtain ⟨st, idx, rem, acc, ph, rsn⟩ := (atBoundary_iff s).mp boundary
  rcases s with ⟨⟩
  subst st idx rem acc ph rsn
  rfl

/-- A header class at a frame boundary with its whole body on offer consumes it and emits its event. -/
theorem runFrame_of_complete {s : State} {h : HeaderBytes} {body : List Byte} (k : BitVec 3) (event : List Byte → Event)
    (rest : List Edge) (boundary : s.atBoundary = true) (complete : body.length = (hdrLen h).toNat) :
    runFrame h k event { s with input := body.map byteEdge ++ rest } =
      .next { s with
        hdr := h, input := rest, pos := s.pos + (8 + body.length), evValid := true, ev := event body
        events := s.events ++ [event body] } := by
  have offered : ({ s with input := body.map byteEdge ++ rest } : State).atBoundary = true := boundary
  simp only [runFrame, offered, if_true, ← complete, takeBytes_exact, completeFrame_of_boundary offered]

/-- Settles O34: the plain class's own event function on its own header. -/
theorem frmPlainForwards : Obligations.FrmPlainForwards := by
  unfold Obligations.FrmPlainForwards
  intro s len body rest boundary complete h e
  have header : unpackHeader (plainWord len) = h := unpackHeader_plainWord len
  have length : hdrLen h = len := by rw [← header]; exact hdrLen_headerWord _ _ _ _
  change execFrmPlain len _ = _
  simp only [execFrmPlain, header]
  exact runFrame_of_complete 0 _ rest boundary (by rw [length, complete])

/-- Settles O35: the sensitive class's own event function on its own header. -/
theorem frmSensVerifies : Obligations.FrmSensVerifies := by
  unfold Obligations.FrmSensVerifies
  intro s len claimed body rest boundary complete h c e
  have header : unpackHeader (sensWord len claimed) = h := unpackHeader_sensWord len claimed
  have length : hdrLen h = len := by rw [← header]; exact hdrLen_headerWord _ _ _ _
  change execFrmSens len claimed _ = _
  simp only [execFrmSens, header]
  exact runFrame_of_complete 0 _ rest boundary (by rw [length, complete])

/-- Settles O36: one reason for each class; the event does not look at the body. -/
theorem rejectedFramesAreSkipped : Obligations.RejectedFramesAreSkipped := by
  unfold Obligations.RejectedFramesAreSkipped
  intro s len body rest boundary complete before after
  have skipped : ∀ (magic options : Byte) (tail : Word32) (k : Reason),
      runRejected (unpackHeader (headerWord magic options len tail)) k len before =
        .next (after k.code (unpackHeader (headerWord magic options len tail))) := fun magic options tail k =>
    runFrame_of_complete k.code _ rest boundary (by rw [hdrLen_headerWord, complete])
  exact ⟨fun magic options tail => skipped magic options tail .magic, fun low tail => skipped _ _ tail .rsvd,
    fun sens padding tail => skipped _ _ tail .padbits, fun tail => skipped _ _ tail .pad4,
    fun checksum pad => skipped _ _ _ .pad2⟩

/-- Settles O37: every class is the frame run with the event of its verdict. -/
theorem completeFrameEmitsItsVerdict : Obligations.CompleteFrameEmitsItsVerdict := by
  unfold Obligations.CompleteFrameEmitsItsVerdict
  intro s h body rest boundary complete
  rw [exec_decodeHeader, runFrame_of_complete _ _ rest boundary complete, complete, Nat.add_assoc]

/-- Settles O39: both sides are the eight bytes as beats. -/
theorem headerInsideAFrameIsEightBytes : Obligations.HeaderInsideAFrameIsEightBytes := by
  unfold Obligations.HeaderInsideAFrameIsEightBytes
  intro s h inside grain opened
  rw [exec_decodeHeader, runFrame_of_not_boundary _ _ _ inside]
  exact (run_byteEdges h.toList s s.input grain opened).symm

/-! ### A skip (R155, R214) -/

/-- As many bytes as a skip has left end it with its event, whatever they are. -/
theorem deliverBytes_skip (bytes : List Byte) (s : State) (skip : s.st = .skip) (some_left : bytes ≠ [])
    (all_left : bytes.length = s.rem.toNat) :
    deliverBytes bytes s = .next ((s.advance bytes.length).returnFromReject (frameEvent s.hdr s.rsn s.acc)) := by
  induction bytes generalizing s with
  | nil => exact absurd rfl some_left
  | cons b bytes ih =>
    have beat : byteBeat b s = .next (skipByte s) := exec_byte_in_skip skip
    simp only [deliverBytes, beat]
    rw [List.length_cons] at all_left
    by_cases last : bytes = []
    · subst last
      have one : s.rem = 1 := BitVec.eq_of_toNat_eq all_left.symm
      simp only [deliverBytes, skipByte, one, if_true]
      rfl
    · have more : s.rem ≠ 1 := by
        intro one
        rw [one] at all_left
        exact last (List.length_eq_zero_iff.mp (Nat.succ.inj all_left))
      have counted : skipByte s = (s.advance 1).countDown.quiet := by rw [skipByte, if_neg more]
      have left : bytes.length = (s.rem - 1).toNat := by
        have small : s.rem.toNat < 65536 := s.rem.isLt
        rw [BitVec.toNat_sub]
        change _ = (2 ^ 16 - 1 + s.rem.toNat) % 2 ^ 16
        omega
      have offset : s.pos + 1 + bytes.length = s.pos + (bytes.length + 1) := by omega
      rw [counted, ih _ (by exact skip) last left]
      simp only [State.returnFromReject, State.emit, State.finish, State.advance, State.countDown, State.quiet, offset,
        List.length_cons]

/-- Settles O33: in the beat grain the run over the bytes is their beats. -/
theorem skipReturnsAfterRemBytes : Obligations.SkipReturnsAfterRemBytes := by
  unfold Obligations.SkipReturnsAfterRemBytes
  intro s bytes rest skip grain reason some_left all_left e
  have opened : s.st ≠ .closed := by
    rw [skip]
    decide
  have run := run_byteEdges bytes s rest grain opened
  rw [deliverBytes_skip bytes (s.withInput rest) skip some_left all_left, State.withInput_hdr, State.withInput_rsn,
    frameEvent_of_rejected _ _ reason] at run
  exact run

/-! ### The edges a step takes (R73, R156, R230) -/

section

variable {s : State} {e : Edge} {rest : List Edge}

theorem fetchEdge_of_end (ended : s.input = []) : fetchEdge s = .noBeat s.quiet := by
  simp only [fetchEdge, ended]

theorem fetchEdge_of_idle (offered : s.input = e :: rest) (reset : e.rst = false) (idle : e.valid = false) :
    fetchEdge s = .noBeat (s.withInput rest).quiet := by
  simp only [fetchEdge, offered, reset, idle, Bool.false_eq_true, if_false, Bool.not_false, if_true]

theorem fetchEdge_of_ready (offered : s.input = e :: rest) (reset : e.rst = false) (valid : e.valid = true)
    (ready : s.inReady = true) : fetchEdge s = .run (decode (.b9 e.beat)) (s.withInput rest) := by
  simp only [fetchEdge, offered, reset, valid, ready, Bool.false_eq_true, if_false, Bool.not_true, Bool.false_and]

/-- In `CLOSED`, with a reset still to come, an edge without reset passes, whatever it offers (log entry 5). -/
theorem fetchEdge_of_waiting (offered : s.input = e :: rest) (reset : e.rst = false) (closed : s.st = .closed)
    (to_come : rest.any Edge.rst = true) : fetchEdge s = .noBeat (s.withInput rest).quiet := by
  have not_ready : s.inReady = false := by
    rw [State.inReady, closed]
    rfl
  simp only [fetchEdge, offered, reset, not_ready, to_come, Bool.false_eq_true, if_false, Bool.not_false, Bool.and_true,
    if_true, ite_self]

end

/-- Settles O42: the ready block fetches the edge and decodes its beat. -/
theorem stepRunsTheAcceptedBeat : Obligations.StepRunsTheAcceptedBeat := by
  unfold Obligations.StepRunsTheAcceptedBeat
  intro s e rest i offered reset valid ready grain decoded
  rw [← decoded]
  exact step_of_run ((fetch_eq_fetchEdge s grain).trans (fetchEdge_of_ready offered reset valid ready))

/-- Settles O43: the eight bytes are fetched as one header. -/
theorem stepRunsTheDecodedHeader : Obligations.StepRunsTheDecodedHeader := by
  unfold Obligations.StepRunsTheDecodedHeader
  intro s h rest i grain boundary offered decoded
  rw [← decoded]
  exact step_of_run (fetch_header s h rest grain boundary offered)

/-- Settles O46: at the end of the input and at an idle edge no beat is fetched. -/
theorem quietCycleKeepsTheRegisters : Obligations.QuietCycleKeepsTheRegisters := by
  unfold Obligations.QuietCycleKeepsTheRegisters
  intro s grain
  have edge := fetch_eq_fetchEdge s grain
  exact ⟨fun ended => step_of_noBeat (edge.trans (fetchEdge_of_end ended)),
    fun e rest offered reset idle => step_of_noBeat (edge.trans (fetchEdge_of_idle offered reset idle))⟩

/-- Settles O53: a closed block is not at a frame boundary, so the edge is fetched in either grain. -/
theorem closedWaitsForReset : Obligations.ClosedWaitsForReset := by
  unfold Obligations.ClosedWaitsForReset
  intro s e rest closed offered reset to_come
  have edge := fetch_eq_fetchEdge s (.inr (atBoundary_of_closed s closed))
  exact step_of_noBeat (edge.trans (fetchEdge_of_waiting offered reset closed (List.any_eq_true.mpr to_come)))

/-- The fetch of an `EOS` edge does not read `in_data` (R72, U11). -/
theorem fetch_eos_data (s : State) (d : Byte) (rest : List Edge) :
    fetch { s with input := ⟨false, true, true, d⟩ :: rest } = fetch { s with input := eosEdge :: rest } := by
  have beat : ∀ d, decode (.b9 (Edge.beat ⟨false, true, true, d⟩)) = .eos := decodeBeat_eosBit
  rw [fetch_of_stop { s with input := ⟨false, true, true, d⟩ :: rest } _ rest rfl (.inr ⟨rfl, rfl⟩),
    fetch_of_stop { s with input := eosEdge :: rest } _ rest rfl (.inr ⟨rfl, rfl⟩)]
  simp only [fetchEdge, eosEdge, beat]
  rfl

/-- Settles O47: the fetch is all of the step that could read `in_data`. -/
theorem eosIgnoresItsData : Obligations.EosIgnoresItsData := by
  unfold Obligations.EosIgnoresItsData
  intro s d d' rest
  rw [step, step, fetch_eos_data, fetch_eos_data]

/-! ### Outside and inside `CLOSED` -/

/-- A header class run at a frame boundary always has a next state. -/
theorem runFrame_next_of_boundary {s : State} (h : HeaderBytes) (k : BitVec 3) (event : List Byte → Event)
    (boundary : s.atBoundary = true) : ∃ t, runFrame h k event s = .next t := by
  rcases runFrame_cases h k event s with ⟨-, body, rest, -, ⟨-, is⟩ | ⟨-, is⟩⟩ | ⟨inside, -⟩
  · exact ⟨_, is⟩
  · exact ⟨_, is⟩
  · rw [boundary] at inside
    cases inside

/-- Settles O51: of all a step can do, only the beat in `CLOSED` has no next state. -/
theorem openBlockAlwaysSteps : Obligations.OpenBlockAlwaysSteps := by
  unfold Obligations.OpenBlockAlwaysSteps
  intro s opened
  rcases step_cases s with ⟨es, is⟩ | ⟨es, is⟩ | ⟨closed, -⟩ | ⟨es, b, -, is⟩ | ⟨es, -, is⟩ | ⟨es, h, -, boundary, is⟩
  · exact ⟨_, is⟩
  · exact ⟨_, is⟩
  · exact absurd closed opened
  · obtain ⟨t, next, -⟩ := byteBeat_of_open (b := b) (s := s.withInput es) opened
    exact ⟨t, is.trans next⟩
  · exact ⟨_, is⟩
  · obtain ⟨t, next⟩ := runFrame_next_of_boundary (s := s.withInput es) h (parseCode (hdrParse h)) (verdict h) boundary
    exact ⟨t, is.trans next⟩

/-- A beat offered to a closed block with no reset to come has no step (R156). -/
theorem step_of_closed_beat {s : State} {e : Edge} {rest : List Edge} (closed : s.st = .closed)
    (offered : s.input = e :: rest) (no_reset : ∀ e ∈ s.input, e.rst = false) (valid : e.valid = true) :
    step s = .fault .beatNotAccepted := by
  have none_to_come : rest.any Edge.rst = false := by
    rw [List.any_eq_false]
    intro r later
    rw [no_reset r (by rw [offered]; exact List.mem_cons_of_mem e later)]
    exact Bool.false_ne_true
  have reset : e.rst = false := no_reset e (by rw [offered]; exact List.mem_cons_self)
  have fetched : fetch s = .run (decode (.b9 e.beat)) (s.withInput rest) := by
    rw [fetch_eq_fetchEdge s (.inr (atBoundary_of_closed s closed))]
    simp only [fetchEdge, offered, reset, valid, none_to_come, Bool.false_eq_true, if_false, Bool.not_true,
      Bool.and_false]
  rw [step_of_run fetched]
  refine closedAcceptsNothing _ (s.withInput rest) ?_ closed
  simp only [decode, decodeBeat]
  split <;> exact fun func => nomatch func

/-- A step of a closed block with no reset to come keeps every register, the events, and the absence of a reset. -/
theorem step_of_closed {s t : State} (closed : s.st = .closed) (no_reset : ∀ e ∈ s.input, e.rst = false)
    (next : step s = .next t) : ∃ es, t = (s.withInput es).quiet ∧ ∀ e ∈ es, e.rst = false := by
  have edge := fetch_eq_fetchEdge s (.inr (atBoundary_of_closed s closed))
  cases offered : s.input with
  | nil =>
    rw [step_of_noBeat (edge.trans (fetchEdge_of_end offered))] at next
    cases next
    exact ⟨s.input, rfl, no_reset⟩
  | cons e rest =>
    rw [offered] at no_reset
    obtain ⟨reset, later⟩ := List.forall_mem_cons.mp no_reset
    cases valid : e.valid with
    | false =>
      rw [step_of_noBeat (edge.trans (fetchEdge_of_idle offered reset valid))] at next
      cases next
      exact ⟨rest, rfl, later⟩
    | true =>
      rw [step_of_closed_beat closed offered (by rw [offered]; exact no_reset) valid] at next
      cases next

/-- Settles O52, by induction on the number of steps. -/
theorem closedUntilReset : Obligations.ClosedUntilReset := by
  unfold Obligations.ClosedUntilReset
  intro s closed no_reset
  refine ⟨fun n => ?_, fun e rest offered valid => step_of_closed_beat closed offered no_reset valid⟩
  induction n generalizing s with
  | zero =>
    intro t run
    cases run
    exact ⟨closed, rfl, rfl, rfl, rfl, rfl, rfl, rfl⟩
  | succ n ih =>
    intro t run
    cases first : step s with
    | next u =>
      obtain ⟨es, rfl, still⟩ := step_of_closed closed no_reset first
      rw [run_succ_of_next n first] at run
      exact ih (s.withInput es).quiet closed still t run
    | fault r =>
      rw [run_succ_of_fault n first] at run
      cases run
    | refused r =>
      rw [run_succ_of_refused n first] at run
      cases run

end Sys2Proof.Machine

/-! PROOFS. Whole frames and whole streams (spec/42_sequencer.md sections 1 to 3): a frame's bytes delivered one by one,
the one-step frame as its beats, the events of a stream, the stale header, and the statements about them. -/

namespace Sys2Proof.Machine

/-! ### Inside a header (R152) -/

theorem open_of_boundary {s : State} (boundary : s.atBoundary = true) : s.st ≠ .closed := by
  rw [((atBoundary_iff s).mp boundary).1]
  decide

/-- The latch with bytes put in from index `n` on. -/
def latchAll : HeaderBytes → Nat → List Byte → HeaderBytes
  | g, _, [] => g
  | g, n, b :: bytes => latchAll (g.set (BitVec.ofNat 3 n) b) (n + 1) bytes

/-- Eight bytes put in from index 0 on are the header, whatever was latched before (R152, R153). -/
theorem latchAll_header (g h : HeaderBytes) :
    (latchAll g 0 [h.b0, h.b1, h.b2, h.b3, h.b4, h.b5, h.b6]).set 7 h.b7 = h := by
  simp [latchAll, HeaderBytes.set]

/-- From a frame boundary `s`, after `n` header bytes, with `g` in the latch. -/
def State.inHeader (s : State) (g : HeaderBytes) (n : Nat) : State :=
  { s with
    hdr := g, idx := BitVec.ofNat 3 n, acc := BitVec.ofNat 32 (csumSum ((csumCover g []).take n)), ph := phaseAfter n
    evValid := false, ev := Event.zero, pos := s.pos + n }

/-- Latching byte `n` puts its covered byte behind the first `n` (R152, R98). -/
theorem take_csumCover_set (g : HeaderBytes) (b : Byte) (n : Nat) (inHeader : n < 8) :
    (csumCover (g.set (BitVec.ofNat 3 n) b) []).take (n + 1) =
      (csumCover g []).take n ++ [coveredByte (BitVec.ofNat 3 n) b] := by
  interval_cases n <;> rfl

theorem inHeader_zero {s : State} (boundary : s.atBoundary = true) : s.inHeader s.hdr 0 = s.quiet := by
  obtain ⟨st, idx, rem, acc, ph, rsn⟩ := (atBoundary_iff s).mp boundary
  rcases s with ⟨⟩
  subst st idx rem acc ph rsn
  rfl

/-- The sum and phase after one more covered header byte. -/
theorem csumAbsorb_header (g : HeaderBytes) (b : Byte) (n : Nat) (inHeader : n < 8) :
    csumAbsorb (BitVec.ofNat 32 (csumSum ((csumCover g []).take n))) (phaseAfter n) (coveredByte (BitVec.ofNat 3 n) b) =
      (BitVec.ofNat 32 (csumSum ((csumCover (g.set (BitVec.ofNat 3 n) b) []).take (n + 1))), phaseAfter (n + 1)) := by
  have length : ∀ (g : HeaderBytes) (n : Nat), n ≤ 8 → ((csumCover g []).take n).length = n := fun g n short => by
    rw [List.length_take, csumCover_length]
    exact Nat.min_eq_left short
  have absorbed := csumAbsorb_snoc ((csumCover g []).take n) (coveredByte (BitVec.ofNat 3 n) b)
  rwa [← take_csumCover_set g b n inHeader, length g n (by omega), length _ (n + 1) (by omega)] at absorbed

theorem byteBeat_inHeader {s : State} (hdr : s.st = .hdr) (g : HeaderBytes) (b : Byte) (n : Nat) (more : n < 7) :
    byteBeat b (s.inHeader g n) = .next (s.inHeader (g.set (BitVec.ofNat 3 n) b) (n + 1)) := by
  have index : (s.inHeader g n).idx.toNat < 7 := by
    change (BitVec.ofNat 3 n).toNat < 7
    rw [BitVec.toNat_ofNat]
    omega
  have beat : byteBeat b (s.inHeader g n) = .next (latchHeaderByte b (s.inHeader g n)) :=
    exec_byte_in_header (s := s.inHeader g n) hdr index
  have absorbed := csumAbsorb_header g b n (by omega)
  rw [beat, latchHeaderByte]
  simp only [State.inHeader, State.latch, State.setSum, State.setIdx, State.advance, State.quiet, absorbed,
    BitVec.ofNat_add, Nat.add_assoc]
  rfl

/-- Up to seven header bytes, delivered one by one. -/
theorem deliverBytes_inHeader {s : State} (hdr : s.st = .hdr) (bytes : List Byte) (g : HeaderBytes) (n : Nat)
    (short : n + bytes.length ≤ 7) :
    deliverBytes bytes (s.inHeader g n) = .next (s.inHeader (latchAll g n bytes) (n + bytes.length)) := by
  induction bytes generalizing g n with
  | nil => rfl
  | cons b bytes ih =>
    rw [List.length_cons] at short
    simp only [deliverBytes, byteBeat_inHeader hdr g b n (by omega)]
    rw [ih _ _ (by omega), latchAll, List.length_cons]
    congr 2
    omega

/-- A beat at a frame boundary does not look at the event port. -/
theorem byteBeat_quiet_of_boundary {s : State} (boundary : s.atBoundary = true) (b : Byte) :
    byteBeat b s.quiet = byteBeat b s := by
  obtain ⟨hdr, idx, -⟩ := (atBoundary_iff s).mp boundary
  have index : s.idx.toNat < 7 := by
    rw [idx]
    decide
  have beat : byteBeat b s = .next (latchHeaderByte b s) := exec_byte_in_header hdr index
  have beat' : byteBeat b s.quiet = .next (latchHeaderByte b s.quiet) := exec_byte_in_header (s := s.quiet) hdr index
  rw [beat, beat']
  rfl

/-- One to seven bytes from a frame boundary. -/
theorem deliverBytes_short {s : State} (boundary : s.atBoundary = true) (bytes : List Byte) (some : bytes ≠ [])
    (short : bytes.length ≤ 7) :
    deliverBytes bytes s = .next (s.inHeader (latchAll s.hdr 0 bytes) bytes.length) := by
  obtain ⟨hdr, -⟩ := (atBoundary_iff s).mp boundary
  have inside := deliverBytes_inHeader hdr bytes s.hdr 0 (by omega)
  rw [inHeader_zero boundary, Nat.zero_add] at inside
  cases bytes with
  | nil => exact absurd rfl some
  | cons b bytes =>
    simp only [deliverBytes, byteBeat_quiet_of_boundary boundary] at inside ⊢
    exact inside

/-! ### The event of a frame and its verdict (R158, R159) -/

/-- The event formed from the parse code and the accumulated sum of the covered bytes is the verdict. -/
theorem frameEvent_eq_verdict (h : HeaderBytes) (body covered : List Byte) (short : body.length ≤ (hdrLen h).toNat)
    (sum : ∀ len sens, hdrParse h = .ok len sens → covered = csumCover h body) :
    frameEvent h (parseCode (hdrParse h)) (BitVec.ofNat 32 (csumSum covered)) = verdict h body := by
  cases parse : hdrParse h with
  | err k =>
    rw [parseCode, frameEvent_of_rejected _ _ k.code_ne_zero]
    simp only [verdict, parse]
  | ok len sens =>
    obtain ⟨rfl, rfl⟩ := hdrParse_ok h len sens parse
    have fits : csumSum (csumCover h body) < 2 ^ 32 :=
      Nat.lt_of_le_of_lt (csumSum_accepted_le h body _ _ parse short) (by decide)
    have acc : (BitVec.ofNat 32 (csumSum (csumCover h body))).toNat = csumSum (csumCover h body) := by
      rw [BitVec.toNat_ofNat]
      exact Nat.mod_eq_of_lt fits
    rw [sum _ _ parse, parseCode, frameEvent_of_accepted, acc, ← csumCompute]
    simp only [verdict, parse, csumVerify, acceptedCode]
    cases hdrSens h <;> by_cases same : csumCompute (csumCover h body) = hdrClaimed h <;> simp [same]

/-! ### A frame, byte by byte (R153 to R155) -/

/-- After a header and as much of its body as `body`: the frame has ended, or it is open (log entry 8). -/
def State.afterFrameBytes (s : State) (h : HeaderBytes) (body : List Byte) : State :=
  if body.length = (hdrLen h).toNat then s.completeFrame h body s.input (verdict h body)
  else s.openFrame h (parseCode (hdrParse h)) body s.input

section

variable (s : State) (h : HeaderBytes) (body : List Byte)

theorem afterFrameBytes_of_complete (complete : body.length = (hdrLen h).toNat) :
    s.afterFrameBytes h body = s.completeFrame h body s.input (verdict h body) := if_pos complete

theorem afterFrameBytes_of_cut (cut : body.length < (hdrLen h).toNat) :
    s.afterFrameBytes h body = s.openFrame h (parseCode (hdrParse h)) body s.input := if_neg (Nat.ne_of_lt cut)

/-- An open frame of an accepted header waits in `BODY` with the sum so far (R153, R154). -/
theorem openFrame_of_ok {len : Word16} {sens : Bool} (parse : hdrParse h = .ok len sens) (es : List Edge) :
    s.openFrame h (parseCode (hdrParse h)) body es =
      { s with
        hdr := h, input := es, pos := s.pos + (8 + body.length), idx := 0
        acc := BitVec.ofNat 32 (csumSum (csumCover h body)), ph := phaseAfter (csumCover h body).length
        evValid := false, ev := Event.zero, rsn := 0, rem := hdrLen h - BitVec.ofNat 16 body.length, st := .body } := by
  rw [parse]
  rfl

/-- An open frame of a rejected header waits in `SKIP` with the header's sum (R153, R155). -/
theorem openFrame_of_err {k : Reason} (parse : hdrParse h = .err k) (es : List Edge) :
    s.openFrame h (parseCode (hdrParse h)) body es =
      { s with
        hdr := h, input := es, pos := s.pos + (8 + body.length), idx := 0
        acc := BitVec.ofNat 32 (csumSum (csumCover h [])), ph := 0
        evValid := false, ev := Event.zero, rsn := k.code, rem := hdrLen h - BitVec.ofNat 16 body.length
        st := .skip } := by
  have phase : phaseAfter (csumCover h []).length = 0 := (phaseAfter_eq_zero _).mpr (by rw [csumCover_length]; rfl)
  simp only [State.openFrame, parse, parseCode, if_neg k.code_ne_zero, phase]
  rfl

end

/-- What `REM` says when `n` body bytes have come (R23). -/
theorem rem_eq_one_iff (len : Word16) (n : Nat) (more : n < len.toNat) :
    len - BitVec.ofNat 16 n = 1 ↔ n + 1 = len.toNat := by
  have small : len.toNat < 65536 := len.isLt
  rw [← BitVec.toNat_inj, BitVec.toNat_sub, BitVec.toNat_ofNat]
  change (2 ^ 16 - n % 2 ^ 16 + len.toNat) % 2 ^ 16 = 1 ↔ _
  omega

/-- `REM` counts a body byte down (R154, R155). -/
theorem rem_sub_one (len : Word16) (n : Nat) : len - BitVec.ofNat 16 n - 1 = len - BitVec.ofNat 16 (n + 1) := by
  rw [BitVec.ofNat_add, BitVec.sub_sub]
  rfl

/-- One more body byte of an open frame: the frame goes on, or ends with its verdict (R154, R155). -/
theorem byteBeat_afterFrameBytes (s : State) (h : HeaderBytes) (body : List Byte) (b : Byte)
    (cut : body.length < (hdrLen h).toNat) :
    byteBeat b (s.afterFrameBytes h body) = .next (s.afterFrameBytes h (body ++ [b])) := by
  have last := rem_eq_one_iff (hdrLen h) body.length cut
  have longer : (body ++ [b]).length = body.length + 1 := by rw [List.length_append, List.length_singleton]
  have offset : s.pos + (8 + body.length) + 1 = s.pos + (8 + (body.length + 1)) := by omega
  have short : (body ++ [b]).length ≤ (hdrLen h).toNat := by omega
  rw [afterFrameBytes_of_cut s h body cut]
  cases parse : hdrParse h with
  | ok len sens =>
    have covered : csumCover h body ++ [b] = csumCover h (body ++ [b]) := rfl
    have absorbed := csumAbsorb_snoc (csumCover h body) b
    have event := frameEvent_eq_verdict h (body ++ [b]) _ short fun _ _ _ => rfl
    rw [covered] at absorbed
    rw [parse, parseCode] at event
    rw [← parse, openFrame_of_ok s h body parse]
    change Host.Outcome.next (bodyByte b _) = _
    simp only [bodyByte, absorbed, last]
    by_cases ends : body.length + 1 = (hdrLen h).toNat
    · rw [if_pos ends, afterFrameBytes_of_complete s h _ (longer.trans ends)]
      simp only [State.endFrame, State.completeFrame, State.emit, State.finish, State.advance, State.withInput, longer,
        offset, event]
    · rw [if_neg ends, afterFrameBytes_of_cut s h _ (by omega), openFrame_of_ok s h _ parse, longer, ← rem_sub_one]
      simp only [State.setSum, State.countDown, State.advance, State.quiet, offset]
  | err k =>
    have event := frameEvent_eq_verdict h (body ++ [b]) (csumCover h []) short (by simp [parse])
    rw [parse, parseCode] at event
    rw [← parse, openFrame_of_err s h body parse]
    change Host.Outcome.next (skipByte _) = _
    simp only [skipByte, last]
    by_cases ends : body.length + 1 = (hdrLen h).toNat
    · rw [if_pos ends, afterFrameBytes_of_complete s h _ (longer.trans ends)]
      simp only [State.returnFromReject, State.completeFrame, State.emit, State.finish, State.advance, State.withInput,
        longer, offset, event]
    · rw [if_neg ends, afterFrameBytes_of_cut s h _ (by omega), openFrame_of_err s h _ parse, longer, ← rem_sub_one]
      simp only [State.countDown, State.advance, State.quiet, offset]

/-- The sum of a whole header (R153). -/
theorem header_sum_end (g : HeaderBytes) (b : Byte) :
    BitVec.ofNat 32 (csumSum ((csumCover g []).take 7)) + BitVec.ofNat 32 b.toNat =
      BitVec.ofNat 32 (csumSum (csumCover (g.set 7 b) [])) := by
  have absorbed := congrArg Prod.fst (csumAbsorb_header g b 7 (by decide))
  rw [csumAbsorb_eq] at absorbed
  refine Eq.trans ?_ absorbed
  change _ = _ + BitVec.ofNat 32 (b.toNat * 1)
  rw [Nat.mul_one]

/-- The eighth header byte ends the header: the frame ends too when it has no body, or it is open (R153). -/
theorem byteBeat_endsHeader {s : State} (boundary : s.atBoundary = true) (g h : HeaderBytes) (b : Byte)
    (latched : g.set 7 b = h) : byteBeat b (s.inHeader g 7) = .next (s.afterFrameBytes h []) := by
  obtain ⟨hdr, -⟩ := (atBoundary_iff s).mp boundary
  have event := frameEvent_eq_verdict h [] (csumCover h []) (Nat.zero_le _) fun _ _ _ => rfl
  have beat : byteBeat b (s.inHeader g 7) = .next (completeHeader b (s.inHeader g 7)) :=
    exec_byte_at_header_end (s := s.inHeader g 7) hdr rfl
  have latchedHere : (s.inHeader g 7).hdr.set 7 b = h := latched
  have latchedState : (s.inHeader g 7).latch b = { s.inHeader g 7 with hdr := h } := by
    rw [← latched]
    rfl
  have sumHere : (s.inHeader g 7).acc + BitVec.ofNat 32 b.toNat = BitVec.ofNat 32 (csumSum (csumCover h [])) := by
    rw [← latched]
    exact header_sum_end g b
  rw [beat]
  by_cases empty : hdrLen h = 0
  · have complete : ([] : List Byte).length = (hdrLen h).toNat := by rw [empty]; rfl
    rw [completeHeader_of_empty (by rw [latchedHere, empty]), latchedHere, sumHere, event, latchedState,
      afterFrameBytes_of_complete s h [] complete]
    rfl
  · have cut : ([] : List Byte).length < (hdrLen h).toNat :=
      Nat.pos_of_ne_zero fun zero => empty (BitVec.eq_of_toNat_eq zero)
    have none_consumed : hdrLen h - BitVec.ofNat 16 ([] : List Byte).length = hdrLen h := BitVec.sub_zero _
    have phase : phaseAfter (csumCover h []).length = 0 := (phaseAfter_eq_zero _).mpr (by rw [csumCover_length]; rfl)
    rw [afterFrameBytes_of_cut s h [] cut]
    cases parse : hdrParse h with
    | ok len sens =>
      rw [completeHeader_of_ok (by rw [latchedHere]; exact empty) (by rw [latchedHere]; exact parse), latchedHere,
        sumHere, latchedState, ← parse, openFrame_of_ok s h [] parse, none_consumed, phase]
      rfl
    | err k =>
      rw [completeHeader_of_err (by rw [latchedHere]; exact empty) (by rw [latchedHere]; exact parse), latchedHere,
        sumHere, latchedState, ← parse, openFrame_of_err s h [] parse, none_consumed]
      rfl

/-- A whole header from a frame boundary. -/
theorem deliverBytes_header {s : State} (boundary : s.atBoundary = true) (h : HeaderBytes) :
    deliverBytes h.toList s = .next (s.afterFrameBytes h []) := by
  have seven := deliverBytes_short boundary [h.b0, h.b1, h.b2, h.b3, h.b4, h.b5, h.b6] (List.cons_ne_nil _ _)
    (by simp only [List.length_cons, List.length_nil]; decide)
  have whole : h.toList = [h.b0, h.b1, h.b2, h.b3, h.b4, h.b5, h.b6] ++ [h.b7] := rfl
  rw [whole, deliverBytes_append _ _ seven]
  have eighth := byteBeat_endsHeader boundary _ h h.b7 (latchAll_header s.hdr h)
  simp only [deliverBytes, List.length_cons, List.length_nil, eighth]

/-- A header and body bytes up to its length, from a frame boundary (R152 to R155). -/
theorem deliverBytes_frame {s : State} (boundary : s.atBoundary = true) (h : HeaderBytes) (body : List Byte)
    (short : body.length ≤ (hdrLen h).toNat) :
    deliverBytes (h.toList ++ body) s = .next (s.afterFrameBytes h body) := by
  induction body using List.reverseRecOn with
  | nil => rw [List.append_nil, deliverBytes_header boundary]
  | append_singleton body b ih =>
    rw [List.length_append, List.length_singleton] at short
    rw [← List.append_assoc, deliverBytes_append _ _ (ih (by omega))]
    simp only [deliverBytes, byteBeat_afterFrameBytes s h body b (by omega)]

/-! ### The one-step frame is its beats (log entries 2 and 8) -/

/-- When no byte can be taken from the input, none is taken however many are asked for. -/
theorem takeBytes_of_none {es : List Edge} (none : takeBytes 1 es = ([], es)) (n : Nat) :
    takeBytes n es = ([], es) := by
  cases n with
  | zero => cases es <;> rfl
  | succ n =>
    cases es with
    | nil => rfl
    | cons e es =>
      have left := takeBytes_suffix 1 es
      simp only [takeBytes] at none ⊢
      split_ifs at none ⊢ with reset idle eos
      · rfl
      · rw [none] at left
        exact absurd left.length_le (by simp)
      · rfl
      · cases none

/-- At a frame boundary a header class ends as its bytes do, when its body is whole or cut off where no byte follows. -/
theorem runFrame_eq_afterFrameBytes {s : State} {h : HeaderBytes} {body : List Byte} {rest : List Edge}
    (boundary : s.atBoundary = true)
    (taken : takeBytes (hdrLen h).toNat s.input = (body, rest)) :
    runFrame h (parseCode (hdrParse h)) (verdict h) s = .next ((s.withInput rest).afterFrameBytes h body) := by
  simp only [runFrame, boundary, taken, if_true, State.afterFrameBytes]
  split <;> rfl

/-- Settles O38: the instruction and the beats both end at `afterFrameBytes`. -/
theorem frameInstructionIsItsBeats : Obligations.FrameInstructionIsItsBeats := by
  unfold Obligations.FrameInstructionIsItsBeats
  intro s h body rest boundary grain whole_or_cut
  have short : body.length ≤ (hdrLen h).toNat := by omega
  have taken : takeBytes (hdrLen h).toNat (body.map byteEdge ++ rest) = (body, rest) := by
    rcases whole_or_cut with whole | ⟨-, none⟩
    · rw [← whole, takeBytes_exact]
    · have more := takeBytes_byteEdges body ((hdrLen h).toNat - body.length) rest
      rw [takeBytes_of_none none, List.append_nil] at more
      rwa [Nat.add_sub_of_le short] at more
  have opened := open_of_boundary boundary
  have beats := run_byteEdges (h.toList ++ body) s rest grain opened
  have bytes : deliverBytes (h.toList ++ body) (s.withInput rest) = .next ((s.withInput rest).afterFrameBytes h body) :=
    deliverBytes_frame (s := s.withInput rest) boundary h body short
  rw [bytes, List.length_append, HeaderBytes.toList_length, List.map_append] at beats
  rw [exec_decodeHeader]
  exact (runFrame_eq_afterFrameBytes (s := s.withInput (body.map byteEdge ++ rest)) boundary taken).trans beats.symm

/-! ### The events of a stream (R168) -/

/-- Eight bytes or more are a header and the bytes after it. -/
theorem exists_header {bytes : List Byte} (long : 8 ≤ bytes.length) :
    ∃ (h : HeaderBytes) (rest : List Byte), bytes = h.toList ++ rest := by
  match bytes, long with
  | b0 :: b1 :: b2 :: b3 :: b4 :: b5 :: b6 :: b7 :: rest, _ => exact ⟨⟨b0, b1, b2, b3, b4, b5, b6, b7⟩, rest, rfl⟩

theorem runFrames_header (fuel : Nat) (h : HeaderBytes) (rest : List Byte) :
    runFrames (fuel + 1) (h.toList ++ rest) =
      if rest.length < (hdrLen h).toNat then [closedEvent true]
      else verdict h (rest.take (hdrLen h).toNat) :: runFrames fuel (rest.drop (hdrLen h).toNat) := rfl

theorem runFrames_nil (fuel : Nat) : runFrames fuel [] = [closedEvent false] := by
  cases fuel <;> rfl

theorem runFrames_short (fuel : Nat) (bytes : List Byte) (some : bytes ≠ []) (short : bytes.length ≤ 7) :
    runFrames fuel bytes = [closedEvent true] := by
  unfold runFrames
  split
  · simp at short
    omega
  · exact absurd rfl some
  · rfl

theorem runFrames_ne_nil (fuel : Nat) (bytes : List Byte) : runFrames fuel bytes ≠ [] := by
  unfold runFrames
  split
  · dsimp only
    split <;> exact List.cons_ne_nil _ _
  · exact List.cons_ne_nil _ _
  · exact List.cons_ne_nil _ _

/-- One to seven bytes of a header are inside a frame (R157). -/
theorem truncFlag_inHeader (n : Nat) (some : 1 ≤ n) (short : n ≤ 7) : truncFlag .hdr (BitVec.ofNat 3 n) = true := by
  interval_cases n <;> rfl

/-- Where the bytes of a stream leave the block that was in `s`: `events` are those emitted on the way and the one that a
close would add. -/
structure StreamEnd (s t : State) (bytes : List Byte) (events : List Event) : Prop where
  opened : t.st ≠ .closed
  pos : t.pos = s.pos + bytes.length
  input : t.input = s.input
  events : t.events ++ [closedEvent (truncFlag t.st t.idx)] = s.events ++ events

/-- A complete frame ends at a frame boundary again, with its verdict emitted. -/
theorem completeFrame_boundary (s : State) (h : HeaderBytes) (body : List Byte) (rest : List Edge) (e : Event) :
    (s.completeFrame h body rest e).atBoundary = true := rfl

/-- A block inside a frame is open and a close would report it (R157). -/
theorem afterFrameBytes_streamEnd_of_cut (s : State) (h : HeaderBytes) (body : List Byte)
    (cut : body.length < (hdrLen h).toNat) :
    StreamEnd s (s.afterFrameBytes h body) (h.toList ++ body) [closedEvent true] := by
  rw [afterFrameBytes_of_cut s h body cut]
  have length : (h.toList ++ body).length = 8 + body.length := by rw [List.length_append, HeaderBytes.toList_length]
  cases parse : hdrParse h with
  | ok len sens =>
    rw [← parse, openFrame_of_ok s h body parse]
    exact ⟨by simp, by rw [length], rfl, rfl⟩
  | err k =>
    rw [← parse, openFrame_of_err s h body parse]
    exact ⟨by simp, by rw [length], rfl, rfl⟩

/-- The bytes of a stream from a frame boundary, by induction on the number of frames. -/
theorem deliverBytes_stream (fuel : Nat) (bytes : List Byte) (s : State) (boundary : s.atBoundary = true)
    (enough : bytes.length ≤ fuel) :
    ∃ t, deliverBytes bytes s = .next t ∧ StreamEnd s t bytes (runFrames fuel bytes) := by
  obtain ⟨hdr, idx, -⟩ := (atBoundary_iff s).mp boundary
  induction fuel generalizing bytes s with
  | zero =>
    have none : bytes = [] := List.length_eq_zero_iff.mp (Nat.le_zero.mp enough)
    subst none
    exact ⟨s, rfl, open_of_boundary boundary, rfl, rfl, by rw [hdr, idx]; rfl⟩
  | succ fuel ih =>
    by_cases long : 8 ≤ bytes.length
    · obtain ⟨h, rest, rfl⟩ := exists_header long
      rw [runFrames_header]
      by_cases cut : rest.length < (hdrLen h).toNat
      · rw [if_pos cut]
        exact ⟨_, deliverBytes_frame boundary h rest (Nat.le_of_lt cut), afterFrameBytes_streamEnd_of_cut s h rest cut⟩
      · obtain ⟨body, more, rfl, whole⟩ : ∃ body more, rest = body ++ more ∧ body.length = (hdrLen h).toNat :=
          ⟨_, _, (List.take_append_drop _ _).symm, List.length_take_of_le (Nat.le_of_not_lt cut)⟩
        rw [if_neg cut, ← whole, List.take_left, List.drop_left]
        have frame := deliverBytes_frame boundary h body (Nat.le_of_eq whole)
        rw [afterFrameBytes_of_complete s h _ whole] at frame
        rw [List.length_append, HeaderBytes.toList_length, List.length_append] at enough
        obtain ⟨t, later, ends⟩ := ih more (s.completeFrame h body s.input (verdict h body))
          (completeFrame_boundary _ _ _ _ _) (by omega) rfl rfl
        have offset : (s.completeFrame h body s.input (verdict h body)).pos = s.pos + (8 + body.length) := rfl
        have emitted : (s.completeFrame h body s.input (verdict h body)).events = s.events ++ [verdict h body] := rfl
        refine ⟨t, ?_, ends.opened, ?_, ends.input, ?_⟩
        · rw [← List.append_assoc, deliverBytes_append _ _ frame, later]
        · rw [ends.pos, offset, List.length_append, List.length_append, HeaderBytes.toList_length]
          omega
        · rw [ends.events, emitted, List.append_assoc, List.singleton_append]
    · by_cases none : bytes = []
      · subst none
        exact ⟨s, rfl, open_of_boundary boundary, rfl, rfl, by rw [hdr, idx]; rfl⟩
      · have short : bytes.length ≤ 7 := by omega
        rw [runFrames_short _ bytes none short]
        refine ⟨_, deliverBytes_short boundary bytes none short, open_of_boundary (s := s) boundary, rfl, rfl, ?_⟩
        change s.events ++ [closedEvent (truncFlag s.st (BitVec.ofNat 3 bytes.length))] = _
        rw [hdr, truncFlag_inHeader _ (List.length_pos_iff.mpr none) short]

/-- The close after a stream adds the last event (R157). -/
theorem StreamEnd.close {s t : State} {bytes : List Byte} {events : List Event} {rest : List Edge}
    (ends : StreamEnd (s.withInput (eosEdge :: rest)) t bytes events) :
    ∃ u, Sys2Proof.core.run 1 t = .next u ∧ u.st = .closed ∧ u.events = s.events ++ events ∧ u.input = rest := by
  have close := step_eosEdge t rest ends.opened
  have offered : t.withInput (eosEdge :: rest) = t := congrArg t.withInput ends.input.symm
  rw [offered] at close
  exact ⟨_, run_succ_of_next 0 close, rfl, ends.events, rfl⟩

/-- Settles O54: the bytes are their beats; the close adds the last event. -/
theorem streamEventsAreRun : Obligations.StreamEventsAreRun := by
  unfold Obligations.StreamEventsAreRun
  intro s bytes rest boundary grain
  have opened := open_of_boundary boundary
  constructor
  · obtain ⟨u, beats, ends⟩ :=
      deliverBytes_stream bytes.length bytes (s.withInput (eosEdge :: rest)) boundary (Nat.le_refl _)
    rw [← run_byteEdges bytes s _ grain opened] at beats
    obtain ⟨t, close, closed, events, input⟩ := ends.close
    exact ⟨t, (run_add_of_next bytes.length 1 beats).trans close, events, closed, input⟩
  · obtain ⟨t, beats, ends⟩ :=
      deliverBytes_stream bytes.length bytes (s.withInput rest) boundary (Nat.le_refl _)
    rw [← run_byteEdges bytes s _ grain opened] at beats
    refine ⟨t, beats, ?_, ends.input, ends.pos⟩
    have events := congrArg List.dropLast ends.events
    rwa [List.dropLast_concat, List.dropLast_append_of_ne_nil (runFrames_ne_nil _ _)] at events

/-! ### The frame grain (log entry 2) -/

/-- A run of byte beats shorter than asked for, up to an `EOS`. -/
theorem takeBytes_to_eos (n : Nat) (bytes : List Byte) (rest : List Edge) (short : bytes.length ≤ n) :
    takeBytes n (bytes.map byteEdge ++ eosEdge :: rest) = (bytes, eosEdge :: rest) := by
  have more := takeBytes_byteEdges bytes (n - bytes.length) (eosEdge :: rest)
  have stop : takeBytes 1 (eosEdge :: rest) = ([], eosEdge :: rest) := rfl
  rwa [Nat.add_sub_of_le short, takeBytes_of_none stop, List.append_nil] at more

/-- With fewer than eight bytes on offer the next edge is fetched in either grain (log entry 6). -/
theorem fetch_of_short (s : State) (short : (takeBytes 8 s.input).1.length < 8) : fetch s = fetchEdge s := by
  have none_fetched : fetchHeader s = none := by
    simp only [fetchHeader, Config.hdrLen]
    split
    · split
      · rename_i decoded
        unfold decodeBytes at decoded
        split at decoded
        · rename_i bytes
          rw [bytes] at short
          simp only [List.length_cons] at short
          omega
        · cases decoded
      · rfl
    · rfl
  cases grain : s.grain <;> simp only [fetch, grain, none_fetched]

/-- Fewer than eight bytes before an `EOS` are run as their beats in either grain. -/
theorem run_byteEdges_short (bytes : List Byte) (s : State) (rest : List Edge) (opened : s.st ≠ .closed)
    (short : bytes.length < 8) :
    Sys2Proof.core.run bytes.length (s.withInput (bytes.map byteEdge ++ eosEdge :: rest)) =
      deliverBytes bytes (s.withInput (eosEdge :: rest)) := by
  induction bytes generalizing s with
  | nil => rfl
  | cons b bytes ih =>
    obtain ⟨t, -, open_after, -, -, moves⟩ := byteBeat_of_open (b := b) opened
    have few : (takeBytes 8 ((b :: bytes).map byteEdge ++ eosEdge :: rest)).1.length < 8 := by
      rw [takeBytes_to_eos 8 (b :: bytes) rest (Nat.le_of_lt short)]
      exact short
    have ready : s.inReady = true := bne_iff_ne.mpr opened
    have first : step (s.withInput ((b :: bytes).map byteEdge ++ eosEdge :: rest)) =
        .next (t.withInput (bytes.map byteEdge ++ eosEdge :: rest)) := by
      have edge := fetchEdge_of_ready (s := s.withInput ((b :: bytes).map byteEdge ++ eosEdge :: rest)) rfl rfl rfl
        ready
      rw [decode_byteEdge, ← fetch_of_short (s.withInput _) few] at edge
      rw [← moves, step_of_run edge]
      rfl
    rw [List.length_cons] at short
    rw [List.length_cons, run_succ_of_next _ first, ih t open_after (by omega)]
    simp only [deliverBytes, moves]
    rfl

/-- In the frame grain a whole header at a frame boundary is one step, with as much of its body as there is. -/
theorem step_frameGrain {s : State} (boundary : s.atBoundary = true) (grain : s.grain = .frame) (h : HeaderBytes)
    {body : List Byte} {es rest : List Edge} (taken : takeBytes (hdrLen h).toNat es = (body, rest)) :
    step (s.withInput (h.toList.map byteEdge ++ es)) = .next ((s.withInput rest).afterFrameBytes h body) := by
  rw [step_of_run (fetch_header (s.withInput (h.toList.map byteEdge ++ es)) h es grain boundary rfl), exec_decodeHeader]
  exact runFrame_eq_afterFrameBytes (s := s.withInput es) boundary taken

/-- In the frame grain, a whole header with its body cut by an `EOS` takes two steps: the open frame, and the close. -/
theorem run_cut_frame {s : State} (boundary : s.atBoundary = true) (grain : s.grain = .frame) (h : HeaderBytes)
    (body : List Byte) (rest : List Edge) (cut : body.length < (hdrLen h).toNat) :
    ∃ t,
      Sys2Proof.core.run 2 (s.withInput (h.toList.map byteEdge ++ (body.map byteEdge ++ eosEdge :: rest))) = .next t ∧
      t.st = .closed ∧ t.events = s.events ++ [closedEvent true] ∧ t.input = rest := by
  have first := step_frameGrain boundary grain h (takeBytes_to_eos _ body rest (Nat.le_of_lt cut))
  obtain ⟨t, close, after⟩ := (afterFrameBytes_streamEnd_of_cut (s.withInput (eosEdge :: rest)) h body cut).close
  exact ⟨t, (run_succ_of_next 1 first).trans close, after⟩

/-- Settles O40: the open frame and its close, with the input split as the statement splits it. -/
theorem cutFrameIsReportedTruncated : Obligations.CutFrameIsReportedTruncated := by
  unfold Obligations.CutFrameIsReportedTruncated
  intro s h body rest boundary grain cut
  rw [List.append_assoc]
  exact run_cut_frame boundary grain h body rest cut

/-- Fewer than eight bytes and an `EOS` from a frame boundary, in either grain. -/
theorem run_short_stream {s : State} (boundary : s.atBoundary = true) (fuel : Nat) (bytes : List Byte)
    (enough : bytes.length ≤ fuel) (short : bytes.length < 8) :
    ∃ n t, Sys2Proof.core.run n (s.withInput (bytes.map byteEdge ++ [eosEdge])) = .next t ∧
      t.st = .closed ∧ t.events = s.events ++ runFrames fuel bytes ∧ t.input = [] := by
  obtain ⟨u, beats, ends⟩ := deliverBytes_stream fuel bytes (s.withInput [eosEdge]) boundary enough
  rw [← run_byteEdges_short bytes s [] (open_of_boundary boundary) short] at beats
  obtain ⟨t, close, after⟩ := ends.close
  exact ⟨bytes.length + 1, t, (run_add_of_next bytes.length 1 beats).trans close, after⟩

/-- The frame grain takes a stream to the close, by induction on the number of frames. -/
theorem run_stream_frameGrain (fuel : Nat) (bytes : List Byte) (s : State) (boundary : s.atBoundary = true)
    (grain : s.grain = .frame) (enough : bytes.length ≤ fuel) :
    ∃ n t, Sys2Proof.core.run n (s.withInput (bytes.map byteEdge ++ [eosEdge])) = .next t ∧
      t.st = .closed ∧ t.events = s.events ++ runFrames fuel bytes ∧ t.input = [] := by
  induction fuel generalizing bytes s with
  | zero => exact run_short_stream boundary 0 bytes enough (by omega)
  | succ fuel ih =>
    by_cases short : bytes.length < 8
    · exact run_short_stream boundary (fuel + 1) bytes enough short
    · obtain ⟨h, rest, rfl⟩ := exists_header (Nat.le_of_not_lt short)
      rw [runFrames_header, List.map_append, List.append_assoc]
      by_cases cut : rest.length < (hdrLen h).toNat
      · rw [if_pos cut]
        exact ⟨2, run_cut_frame boundary grain h rest [] cut⟩
      · obtain ⟨body, more, rfl, whole⟩ : ∃ body more, rest = body ++ more ∧ body.length = (hdrLen h).toNat :=
          ⟨_, _, (List.take_append_drop _ _).symm, List.length_take_of_le (Nat.le_of_not_lt cut)⟩
        rw [if_neg cut, ← whole, List.take_left, List.drop_left, List.map_append, List.append_assoc]
        have taken := takeBytes_exact body (more.map byteEdge ++ [eosEdge])
        rw [whole] at taken
        have first := step_frameGrain boundary grain h taken
        rw [afterFrameBytes_of_complete _ h body whole] at first
        rw [List.length_append, HeaderBytes.toList_length, List.length_append] at enough
        obtain ⟨n, t, run, closed, events, input⟩ := ih more
          (s.completeFrame h body (more.map byteEdge ++ [eosEdge]) (verdict h body))
          (completeFrame_boundary _ _ _ _ _) grain (by omega)
        refine ⟨n + 1, t, (run_succ_of_next n first).trans run, closed, ?_, input⟩
        have emitted : (s.completeFrame h body (more.map byteEdge ++ [eosEdge]) (verdict h body)).events =
            s.events ++ [verdict h body] := rfl
        rw [events, emitted, List.append_assoc, List.singleton_append]

/-- Settles O55: by frames, with as much fuel as bytes. -/
theorem frameGrainEmitsTheSameEvents : Obligations.FrameGrainEmitsTheSameEvents := by
  unfold Obligations.FrameGrainEmitsTheSameEvents
  intro s bytes boundary grain
  obtain ⟨n, t, run, closed, events, input⟩ := run_stream_frameGrain bytes.length bytes s boundary grain (Nat.le_refl _)
  exact ⟨n, t, run, events, closed, input⟩

/-! ### Frames built as R78 says -/

/-- The stream of one complete frame (R168). -/
theorem runStream_of_frame (h : HeaderBytes) (body : List Byte) (complete : body.length = (hdrLen h).toNat) :
    runStream (h.toList ++ body) = [verdict h body, closedEvent false] := by
  have fuel : (h.toList ++ body).length = body.length + 7 + 1 := by
    rw [List.length_append, HeaderBytes.toList_length]
    omega
  rw [runStream, fuel, runFrames_header, if_neg (by omega), ← complete, List.take_length, List.drop_length,
    runFrames_nil]

/-- The length field of a body that fits it (R64). -/
theorem bodyLength_toNat {body : List Byte} (fits : body.length ≤ 65535) :
    (BitVec.ofNat 16 body.length).toNat = body.length := by
  rw [BitVec.toNat_ofNat]
  exact Nat.mod_eq_of_lt (Nat.lt_succ_of_le fits)

theorem sensHeaderFor_eq (claimed : Word16) (body : List Byte) :
    sensHeaderFor claimed body =
      ⟨0xCC, 0x40, hi8 (BitVec.ofNat 16 body.length), lo8 (BitVec.ofNat 16 body.length), hi8 claimed, lo8 claimed,
        0, 0⟩ :=
  unpackHeader_sensWord _ _

theorem plainHeaderFor_eq (body : List Byte) :
    plainHeaderFor body =
      ⟨0xCC, 0x00, hi8 (BitVec.ofNat 16 body.length), lo8 (BitVec.ofNat 16 body.length), 0, 0, 0, 0⟩ :=
  unpackHeader_plainWord _

/-- The verdict on a sensitive frame that claims its own checksum (R159): the claimed value is not covered. -/
theorem verdict_sens (body : List Byte) :
    verdict (sensHeaderFor (sensChecksum body) body) body =
      ⟨0, BitVec.ofNat 16 body.length, true, sensChecksum body, sensChecksum body, false⟩ := by
  have checksum : sensChecksum body = csumCompute (csumCover (sensHeaderFor (sensChecksum body) body) body) := by
    rw [sensHeaderFor_eq, sensChecksum, sensHeaderFor_eq]
    rfl
  have claimed : hdrClaimed (sensHeaderFor (sensChecksum body) body) = sensChecksum body := by
    rw [sensHeaderFor_eq, hdrClaimed, be16_hi8_lo8]
  have parse : hdrParse (sensHeaderFor (sensChecksum body) body) = .ok (BitVec.ofNat 16 body.length) true := by
    rw [sensHeaderFor_eq, hdrParse_sensShape]
  simp only [verdict, parse, csumVerify, claimed, ← checksum, beq_self_eq_true, Bool.or_true, if_true]

/-- The verdict on a plain frame (R159). -/
theorem verdict_plain (body : List Byte) :
    verdict (plainHeaderFor body) body =
      ⟨0, BitVec.ofNat 16 body.length, false, 0, csumCompute (csumCover (plainHeaderFor body) body), false⟩ := by
  have claimed : hdrClaimed (plainHeaderFor body) = 0 := by
    rw [plainHeaderFor_eq]
    exact (by decide : be16 0 0 = 0)
  have parse : hdrParse (plainHeaderFor body) = .ok (BitVec.ofNat 16 body.length) false := by
    rw [plainHeaderFor_eq, hdrParse_plainShape]
  simp only [verdict, parse, claimed, Bool.not_false, Bool.true_or, if_true]

/-- Settles O41: the stream is one complete frame, and its verdict accepts it. -/
theorem correctlyBuiltFramesAreForwarded : Obligations.CorrectlyBuiltFramesAreForwarded := by
  unfold Obligations.CorrectlyBuiltFramesAreForwarded
  intro body fits
  have length := bodyLength_toNat fits
  have sensLength : hdrLen (sensHeaderFor (sensChecksum body) body) = BitVec.ofNat 16 body.length := by
    rw [sensHeaderFor_eq, hdrLen, be16_hi8_lo8]
  have plainLength : hdrLen (plainHeaderFor body) = BitVec.ofNat 16 body.length := by
    rw [plainHeaderFor_eq, hdrLen, be16_hi8_lo8]
  constructor
  · refine ⟨_, runStream_of_frame (sensHeaderFor (sensChecksum body) body) body (by rw [sensLength, length]), ?_⟩
    rw [verdict_sens]
    exact ⟨rfl, rfl, length, rfl⟩
  · refine ⟨_, runStream_of_frame (plainHeaderFor body) body (by rw [plainLength, length]), ?_⟩
    rw [verdict_plain]
    exact ⟨rfl, rfl, length, rfl⟩

/-! ### The stale header (R34) -/

/-- The state with other bytes in the latch. -/
def State.withLatch (s : State) (g : HeaderBytes) : State := { s with hdr := g }

/-- Two states that the rest of a run cannot tell apart: they are equal, or both collect a header, agree on the bytes
already latched and differ at most in the stale ones. -/
def StaleEq (s t : State) : Prop :=
  s = t ∨ s.st = .hdr ∧ ∃ g, t = s.withLatch g ∧ ∀ i : BitVec 3, i.toNat < s.idx.toNat → s.hdr.get i = g.get i

/-- Two outcomes of which this holds: both go on to such states, or both stop for the same reason. -/
def StaleEqResult : Result → Result → Prop
  | .next s, .next t => StaleEq s t
  | .fault r, .fault q => r = q
  | .refused r, .refused q => r = q
  | _, _ => False

theorem StaleEq.refl (s : State) : StaleEq s s := .inl rfl

theorem StaleEqResult.refl (o : Result) : StaleEqResult o o := by
  cases o
  · exact StaleEq.refl _
  · exact Eq.refl _
  · exact Eq.refl _

/-- Headers with the same eight bytes are the same. -/
theorem headerBytes_eq_of_get {g h : HeaderBytes} (bytes : ∀ i : BitVec 3, g.get i = h.get i) : g = h := by
  rcases g with ⟨⟩
  rcases h with ⟨⟩
  rw [HeaderBytes.mk.injEq]
  exact ⟨bytes 0, bytes 1, bytes 2, bytes 3, bytes 4, bytes 5, bytes 6, bytes 7⟩

/-- Latching the next byte keeps the agreement on the bytes latched so far, the new one included (R152). -/
theorem get_set_agree {g h : HeaderBytes} {n : BitVec 3} (b : Byte)
    (agree : ∀ i : BitVec 3, i.toNat < n.toNat → h.get i = g.get i) (i : BitVec 3) (upto : i.toNat ≤ n.toNat) : (h.set n b).get i = (g.set n b).get i := by
  by_cases here : n = i
  · subst here
    rw [HeaderBytes.get_set_same, HeaderBytes.get_set_same]
  · rw [HeaderBytes.get_set_other _ _ _ _ here, HeaderBytes.get_set_other _ _ _ _ here]
    exact agree i (Nat.lt_of_le_of_ne upto fun same => here (BitVec.eq_of_toNat_eq same.symm))

/-- A byte in `HDR` cannot tell two stale headers apart: the eighth overwrites the last one (R152, R153). -/
theorem byteBeat_staleEq {s : State} {g : HeaderBytes} (hdr : s.st = .hdr) (b : Byte)
    (agree : ∀ i : BitVec 3, i.toNat < s.idx.toNat → s.hdr.get i = g.get i) :
    StaleEqResult (byteBeat b s) (byteBeat b (s.withLatch g)) := by
  have latched := get_set_agree (n := s.idx) b agree
  have index : s.idx.toNat < 8 := s.idx.isLt
  by_cases more : s.idx.toNat < 7
  · have beat : byteBeat b s = .next (latchHeaderByte b s) := exec_byte_in_header hdr more
    have beat' : byteBeat b (s.withLatch g) = .next (latchHeaderByte b (s.withLatch g)) :=
      exec_byte_in_header (s := s.withLatch g) hdr more
    rw [beat, beat']
    refine .inr ⟨hdr, g.set s.idx b, rfl, fun i below => latched i ?_⟩
    have next : (s.idx + 1).toNat = s.idx.toNat + 1 := by
      rw [BitVec.toNat_add]
      change (s.idx.toNat + 1) % 8 = _
      omega
    change i.toNat < (s.idx + 1).toNat at below
    omega
  · have seven : s.idx = 7 := BitVec.eq_of_toNat_eq (by change _ = 7; omega)
    have beat : byteBeat b s = .next (completeHeader b s) := exec_byte_at_header_end hdr seven
    have beat' : byteBeat b (s.withLatch g) = .next (completeHeader b (s.withLatch g)) :=
      exec_byte_at_header_end (s := s.withLatch g) hdr seven
    have same : s.hdr.set s.idx b = g.set s.idx b := headerBytes_eq_of_get fun i => latched i (by
      have : i.toNat < 8 := i.isLt
      omega)
    have sameLatch : (s.withLatch g).latch b = s.latch b := by
      rw [State.latch, State.latch, same]
      rfl
    have same7 : (s.withLatch g).hdr.set 7 b = s.hdr.set 7 b := by
      rw [← seven]
      exact same.symm
    have acc : (s.withLatch g).acc = s.acc := rfl
    rw [beat, beat']
    refine .inl ?_
    simp only [completeHeader, same7, sameLatch, acc]

/-- The header fetched in the frame grain, idle cycles between its bytes passed over (R46). -/
theorem fetch_of_header_taken {s : State} {h : HeaderBytes} {rest : List Edge} (grain : s.grain = .frame)
    (boundary : s.atBoundary = true) (taken : takeBytes 8 s.input = (h.toList, rest)) :
    fetch s = .run (decodeHeader (packHeader h)) (s.withInput rest) := by
  simp only [fetch, grain, fetchHeader, boundary, Config.hdrLen, taken, if_true]
  rfl

/-- What a step does while the block collects a header does not depend on what is latched: a cycle without a beat, a
reset, a byte, the close, or at a frame boundary a whole header. -/
theorem step_cases_withLatch {s : State} (hdr : s.st = .hdr) :
    (∃ es, ∀ g, step (s.withLatch g) = .next ((s.withInput es).withLatch g).quiet) ∨
    (∃ es, ∀ g, step (s.withLatch g) = .next ((s.withInput es).withLatch g).resetRegisters) ∨
    (∃ es b, ∀ g, step (s.withLatch g) = byteBeat b ((s.withInput es).withLatch g)) ∨
    (∃ es, ∀ g, step (s.withLatch g) = execEos ((s.withInput es).withLatch g)) ∨
    (s.atBoundary = true ∧ ∃ es h, ∀ g, step (s.withLatch g) =
      runFrame h (parseCode (hdrParse h)) (verdict h) ((s.withInput es).withLatch g)) := by
  by_cases whole : s.grain = .frame ∧ s.atBoundary = true ∧ 8 ≤ (takeBytes 8 s.input).1.length
  · obtain ⟨grain, boundary, long⟩ := whole
    obtain ⟨h, more, bytes⟩ := exists_header long
    have none_more : more = [] := by
      have atMost := takeBytes_length_le 8 s.input
      rw [bytes, List.length_append, HeaderBytes.toList_length] at atMost
      exact List.length_eq_zero_iff.mp (by omega)
    rw [none_more, List.append_nil] at bytes
    refine .inr (.inr (.inr (.inr ⟨boundary, (takeBytes 8 s.input).2, h, fun g => ?_⟩)))
    rw [step_of_run (fetch_of_header_taken (s := s.withLatch g) grain boundary (Prod.ext bytes rfl)), exec_decodeHeader]
    rfl
  · have edge : ∀ g, fetch (s.withLatch g) = fetchEdge (s.withLatch g) := fun g => by
      by_cases short : (takeBytes 8 s.input).1.length < 8
      · exact fetch_of_short (s.withLatch g) short
      · refine fetch_eq_fetchEdge (s.withLatch g) ?_
        change s.grain = .beat ∨ s.atBoundary = false
        cases grain : s.grain
        · exact .inl rfl
        · exact .inr (Bool.eq_false_iff.mpr fun boundary => whole ⟨grain, boundary, Nat.le_of_not_lt short⟩)
    cases offered : s.input with
    | nil =>
      exact .inl ⟨s.input, fun g => step_of_noBeat ((edge g).trans (fetchEdge_of_end (s := s.withLatch g) offered))⟩
    | cons e rest =>
      cases reset : e.rst with
      | true =>
        exact .inr (.inl ⟨rest, fun g => step_of_rst (s := s.withLatch g) offered reset⟩)
      | false =>
        cases valid : e.valid with
        | false =>
          exact .inl ⟨rest, fun g =>
            step_of_noBeat ((edge g).trans (fetchEdge_of_idle (s := s.withLatch g) offered reset valid))⟩
        | true =>
          have run : ∀ g, step (s.withLatch g) = exec (decodeBeat e.beat) ((s.withInput rest).withLatch g) := fun g =>
            step_of_run ((edge g).trans (fetchEdge_of_ready (s := s.withLatch g) offered reset valid
              (bne_iff_ne.mpr (by rw [State.withLatch, hdr]; decide))))
          by_cases eos : e.beat.getLsbD 8 = true
          · rw [decodeBeat, if_pos eos] at run
            exact .inr (.inr (.inr (.inl ⟨rest, run⟩)))
          · rw [decodeBeat, if_neg eos] at run
            exact .inr (.inr (.inl ⟨rest, _, run⟩))

/-- A header class at a frame boundary puts its own header into the latch. -/
theorem runFrame_withLatch {s : State} (boundary : s.atBoundary = true) (g h : HeaderBytes) (k : BitVec 3)
    (event : List Byte → Event) : runFrame h k event (s.withLatch g) = runFrame h k event s := by
  have boundary' : (s.withLatch g).atBoundary = true := boundary
  simp only [runFrame, boundary, boundary', if_true]
  rfl

/-- A step keeps two states indistinguishable. -/
theorem step_staleEq {s t : State} (related : StaleEq s t) : StaleEqResult (step s) (step t) := by
  rcases related with rfl | ⟨hdr, g, rfl, agree⟩
  · exact StaleEqResult.refl _
  · change StaleEqResult (step (s.withLatch s.hdr)) _
    rcases step_cases_withLatch hdr with ⟨es, is⟩ | ⟨es, is⟩ | ⟨es, b, is⟩ | ⟨es, is⟩ | ⟨boundary, es, h, is⟩ <;>
      rw [is, is]
    · exact .inr ⟨hdr, g, rfl, agree⟩
    · exact .inl rfl
    · exact byteBeat_staleEq (s := s.withInput es) hdr b agree
    · have close : ∀ g, execEos ((s.withInput es).withLatch g) =
          .next (((s.withInput es).emit (closedEvent (truncFlag .hdr s.idx))).close) := fun g => by
        simp only [execEos, State.withLatch, State.withInput, hdr]
        rfl
      rw [close, close]
      exact StaleEqResult.refl _
    · rw [runFrame_withLatch (s := s.withInput es) boundary, runFrame_withLatch (s := s.withInput es) boundary]
      exact StaleEqResult.refl _

/-- A run of any length keeps two states indistinguishable. -/
theorem run_staleEq (n : Nat) {s t : State} (related : StaleEq s t) :
    StaleEqResult (Sys2Proof.core.run n s) (Sys2Proof.core.run n t) := by
  induction n generalizing s t with
  | zero => exact related
  | succ n ih =>
    have first := step_staleEq related
    cases stepS : step s <;> cases stepT : step t <;> rw [stepS, stepT] at first
    case next.next u v =>
      rw [run_succ_of_next n stepS, run_succ_of_next n stepT]
      exact ih first
    case fault.fault r q =>
      rw [run_succ_of_fault n stepS, run_succ_of_fault n stepT]
      exact first
    case refused.refused r q =>
      rw [run_succ_of_refused n stepS, run_succ_of_refused n stepT]
      exact first
    all_goals exact first.elim

/-- Indistinguishable outcomes look the same from outside: the latch is not an output. -/
theorem StaleEqResult.sameFromOutside {o p : Result} (related : StaleEqResult o p) : SameFromOutside o p := by
  cases o <;> cases p
  case next.next s t =>
    rcases related with rfl | ⟨-, g, rfl, -⟩
    · exact ⟨rfl, rfl, rfl, rfl, rfl⟩
    · exact ⟨rfl, rfl, rfl, rfl, rfl⟩
  all_goals exact related

/-- Settles O56: at a frame boundary no byte of the header is latched yet. -/
theorem staleHeaderIsUnobservable : Obligations.StaleHeaderIsUnobservable := by
  unfold Obligations.StaleHeaderIsUnobservable
  intro s h n boundary
  obtain ⟨hdr, idx, -⟩ := (atBoundary_iff s).mp boundary
  refine (run_staleEq n (.inr ⟨hdr, h, rfl, fun i below => ?_⟩)).sameFromOutside
  rw [idx] at below
  exact absurd below (Nat.not_lt_zero _)

end Sys2Proof.Machine

/-! PROOFS. The invariants (spec/10_state.md R33, 60_exceptions.md R212, 30_encoding.md R74): what a state needs in each
value of `ST`, the registers after a byte, after a frame left open and after the other steps, and the statements about
them. -/

namespace Sys2Proof.Machine

/-! ### The event port -/

/-- The port is empty, or it shows the latest event (R74). -/
def PortOk (s : State) : Prop :=
  (s.evValid = false → s.ev = Event.zero) ∧ (s.evValid = true → s.events.getLast? = some s.ev)

/-- After any step the port is in order, whatever it showed before. -/
theorem portOk_of_step {s t : State} (next : step s = .next t) : PortOk t := by
  rcases step_silent_or_emitted next with ⟨-, empty, zero⟩ | ⟨valid, added⟩
  · exact ⟨fun _ => zero, fun valid => absurd (empty.symm.trans valid) Bool.false_ne_true⟩
  · refine ⟨fun empty => absurd (empty.symm.trans valid) Bool.false_ne_true, fun _ => ?_⟩
    rw [added, List.getLast?_concat]

/-! ### What a state needs, by `ST` -/

/-- The sum over header bytes is small (R95). -/
theorem csumSum_header_le (h : HeaderBytes) (n : Nat) : csumSum ((csumCover h []).take n) ≤ 4 * 65535 := by
  have bound := csumSum_le ((csumCover h []).take n)
  have short : ((csumCover h []).take n).length ≤ 8 := by
    rw [List.length_take, csumCover_length]
    exact Nat.min_le_right _ _
  omega

theorem csumSum_whole_header_le (h : HeaderBytes) : csumSum (csumCover h []) ≤ 4 * 65535 :=
  csumSum_header_le h 8

section

variable {t : State} (port : PortOk t)

include port

/-- In `HDR` (R33 items 1, 2, 6 and 7). -/
theorem inv_of_hdr (st : t.st = .hdr) (rem : t.rem = 0) (rsn : t.rsn = 0) (ph : t.ph = phaseAfter t.idx.toNat)
    (sum : t.acc.toNat = csumSum ((csumCover t.hdr []).take t.idx.toNat)) : t.Inv where
  hdr_registers _ := ⟨rem, rsn, ph⟩
  boundary_registers _ idx := by
    rw [idx] at ph sum
    exact ⟨BitVec.eq_of_toNat_eq sum, ph⟩
  body_registers other := by rw [st] at other; cases other
  skip_registers other := by rw [st] at other; cases other
  closed_registers other := by rw [st] at other; cases other
  acc_bound := by
    rw [sum]
    exact Nat.le_trans (csumSum_header_le _ _) (by decide)
  hdr_sum _ := sum
  body_sum other := by rw [st] at other; cases other
  skip_sum other := by rw [st] at other; cases other
  port_quiet := port.1
  port_latest := port.2

theorem inv_of_boundary (boundary : t.atBoundary = true) : t.Inv := by
  obtain ⟨st, idx, rem, acc, ph, rsn⟩ := (atBoundary_iff t).mp boundary
  refine inv_of_hdr port st rem rsn ?_ ?_
  · rw [ph, idx]
    rfl
  · rw [acc, idx]
    rfl

/-- In `BODY`, with `body` consumed so far (R33 items 3, 6 and 7). -/
theorem inv_of_body (st : t.st = .body) (idx : t.idx = 0) (rsn : t.rsn = 0)
    (parse : hdrParse t.hdr = .ok (hdrLen t.hdr) (hdrSens t.hdr)) (body : List Byte)
    (left : body.length + t.rem.toNat = (hdrLen t.hdr).toNat) (more : 1 ≤ t.rem.toNat)
    (ph : t.ph = phaseAfter body.length) (sum : t.acc = BitVec.ofNat 32 (csumSum (csumCover t.hdr body))) : t.Inv := by
  have consumed : body.length = (hdrLen t.hdr).toNat - t.rem.toNat := by omega
  have bound : csumSum (csumCover t.hdr body) ≤ Config.accMax := csumSum_accepted_le _ _ _ _ parse (by omega)
  have acc : t.acc.toNat = csumSum (csumCover t.hdr body) := by
    rw [sum, BitVec.toNat_ofNat]
    exact Nat.mod_eq_of_lt (Nat.lt_of_le_of_lt bound (by decide))
  exact {
    hdr_registers := fun other => by rw [st] at other; cases other
    boundary_registers := fun other => by rw [st] at other; cases other
    body_registers := fun _ => ⟨idx, rsn, more, by omega, by rw [ph, consumed], parse⟩
    skip_registers := fun other => by rw [st] at other; cases other
    closed_registers := fun other => by rw [st] at other; cases other
    acc_bound := by rw [acc]; exact bound
    hdr_sum := fun other => by rw [st] at other; cases other
    body_sum := fun _ => ⟨body, consumed, acc⟩
    skip_sum := fun other => by rw [st] at other; cases other
    port_quiet := port.1
    port_latest := port.2 }

/-- In `SKIP` (R33 items 4 and 6, R212). -/
theorem inv_of_skip (st : t.st = .skip) (idx : t.idx = 0) {k : Reason} (rsn : t.rsn = k.code)
    (parse : hdrParse t.hdr = .err k) (more : 1 ≤ t.rem.toNat) (left : t.rem.toNat ≤ (hdrLen t.hdr).toNat) (ph : t.ph = 0)
    (sum : t.acc = BitVec.ofNat 32 (csumSum (csumCover t.hdr []))) : t.Inv := by
  have bound := csumSum_whole_header_le t.hdr
  have acc : t.acc.toNat = csumSum (csumCover t.hdr []) := by
    rw [sum, BitVec.toNat_ofNat]
    exact Nat.mod_eq_of_lt (Nat.lt_of_le_of_lt bound (by decide))
  exact {
    hdr_registers := fun other => by rw [st] at other; cases other
    boundary_registers := fun other => by rw [st] at other; cases other
    body_registers := fun other => by rw [st] at other; cases other
    skip_registers := fun _ => ⟨idx, more, left, k, rsn, parse⟩
    closed_registers := fun other => by rw [st] at other; cases other
    acc_bound := by rw [acc]; exact Nat.le_trans bound (by decide)
    hdr_sum := fun other => by rw [st] at other; cases other
    body_sum := fun other => by rw [st] at other; cases other
    skip_sum := fun _ => ⟨acc, ph⟩
    port_quiet := port.1
    port_latest := port.2 }

end

/-- In `CLOSED`, after the close (R33 item 5, R157). -/
theorem inv_of_close {s : State} (port : PortOk s.close) : s.close.Inv where
  hdr_registers other := nomatch other
  boundary_registers other := nomatch other
  body_registers other := nomatch other
  skip_registers other := nomatch other
  closed_registers _ := ⟨rfl, rfl, rfl, rfl, rfl, rfl⟩
  acc_bound := Nat.zero_le _
  hdr_sum other := nomatch other
  body_sum other := nomatch other
  skip_sum other := nomatch other
  port_quiet := port.1
  port_latest := port.2

/-- The invariants do not speak of the input. -/
theorem State.Inv.withInput {s : State} (inv : s.Inv) (es : List Edge) : (s.withInput es).Inv :=
  ⟨inv.hdr_registers, inv.boundary_registers, inv.body_registers, inv.skip_registers, inv.closed_registers, inv.acc_bound,
    inv.hdr_sum, inv.body_sum, inv.skip_sum, inv.port_quiet, inv.port_latest⟩

/-- Clearing the port keeps the registers. -/
theorem State.Inv.quiet {s : State} (inv : s.Inv) : s.quiet.Inv :=
  ⟨inv.hdr_registers, inv.boundary_registers, inv.body_registers, inv.skip_registers, inv.closed_registers, inv.acc_bound,
    inv.hdr_sum, inv.body_sum, inv.skip_sum, fun _ => rfl, fun valid => nomatch valid⟩

/-! ### A byte keeps the invariants -/

/-- The accumulator as the model writes it, when its number is known. -/
theorem acc_eq_ofNat {acc : Word32} {n : Nat} (sum : acc.toNat = n) : acc = BitVec.ofNat 32 n := by
  rw [← sum, BitVec.ofNat_toNat, BitVec.setWidth_eq]

/-- `REM` counts down (R23). -/
theorem rem_toNat_sub_one {r : Word16} (more : 1 ≤ r.toNat) : (r - 1).toNat = r.toNat - 1 := by
  have small : r.toNat < 65536 := r.isLt
  rw [BitVec.toNat_sub]
  change (2 ^ 16 - 1 + r.toNat) % 2 ^ 16 = _
  omega

/-- The length of a frame with a body (R153). -/
theorem one_le_of_ne_zero {r : Word16} (nonzero : r ≠ 0) : 1 ≤ r.toNat :=
  Nat.pos_of_ne_zero fun zero => nonzero (BitVec.eq_of_toNat_eq zero)

/-- More than one byte is left when `REM` is neither 0 nor 1. -/
theorem two_le_of_ne_one {r : Word16} (some : 1 ≤ r.toNat) (more : r ≠ 1) : 2 ≤ r.toNat :=
  Nat.lt_of_le_of_ne some fun one => more (BitVec.eq_of_toNat_eq one.symm)

/-- The eight header bytes do not change the phase (R27). -/
theorem phaseAfter_csumCover (h : HeaderBytes) (body : List Byte) :
    phaseAfter (csumCover h body).length = phaseAfter body.length := by
  rw [csumCover_length, phaseAfter, BitVec.ofNat_add]
  exact BitVec.zero_add _

section

variable {s : State} {b : Byte} (inv : s.Inv)

include inv

theorem latchHeaderByte_inv (st : s.st = .hdr) (idx : s.idx.toNat < 7) (port : PortOk (latchHeaderByte b s)) :
    (latchHeaderByte b s).Inv := by
  obtain ⟨rem, rsn, ph⟩ := inv.hdr_registers st
  have index : BitVec.ofNat 3 s.idx.toNat = s.idx := by rw [BitVec.ofNat_toNat, BitVec.setWidth_eq]
  have absorbed := csumAbsorb_header s.hdr b s.idx.toNat (by omega)
  rw [← acc_eq_ofNat (inv.hdr_sum st), ← ph, index] at absorbed
  have next : (s.idx + 1).toNat = s.idx.toNat + 1 := by
    rw [BitVec.toNat_add]
    change (s.idx.toNat + 1) % 8 = _
    omega
  refine inv_of_hdr port st rem rsn ?_ ?_
  · change (csumAbsorb s.acc s.ph (coveredByte s.idx b)).2 = phaseAfter (s.idx + 1).toNat
    rw [absorbed, next]
  · change (csumAbsorb s.acc s.ph (coveredByte s.idx b)).1.toNat =
      csumSum ((csumCover (s.hdr.set s.idx b) []).take (s.idx + 1).toNat)
    rw [absorbed, next, BitVec.toNat_ofNat]
    exact Nat.mod_eq_of_lt (Nat.lt_of_le_of_lt (csumSum_header_le _ _) (by decide))

theorem completeHeader_inv (st : s.st = .hdr) (idx : s.idx = 7) (port : PortOk (completeHeader b s)) :
    (completeHeader b s).Inv := by
  have sum : s.acc + BitVec.ofNat 32 b.toNat = BitVec.ofNat 32 (csumSum (csumCover (s.hdr.set 7 b) [])) := by
    have before := inv.hdr_sum st
    rw [idx] at before
    rw [acc_eq_ofNat before]
    exact header_sum_end s.hdr b
  have latched : (s.latch b).hdr = s.hdr.set 7 b := by rw [State.latch_hdr, idx]
  by_cases empty : hdrLen (s.hdr.set 7 b) = 0
  · rw [completeHeader_of_empty empty] at port ⊢
    exact inv_of_boundary port rfl
  · have more := one_le_of_ne_zero empty
    cases parse : hdrParse (s.hdr.set 7 b) with
    | ok len sens =>
      obtain ⟨rfl, rfl⟩ := hdrParse_ok _ _ _ parse
      rw [completeHeader_of_ok empty parse] at port ⊢
      refine inv_of_body port rfl rfl rfl ?_ [] ?_ more rfl ?_ <;>
        simp only [State.enterBody_hdr, State.quiet_hdr, State.setSum_hdr, State.advance_hdr, State.setIdx_hdr, latched]
      · exact parse
      · exact Nat.zero_add _
      · exact sum
    | err k =>
      rw [completeHeader_of_err empty parse] at port ⊢
      refine inv_of_skip port rfl rfl rfl (k := k) ?_ more ?_ rfl ?_ <;>
        simp only [State.takeReject_hdr, State.quiet_hdr, State.setSum_hdr, State.advance_hdr, State.setIdx_hdr, latched]
      · exact parse
      · exact Nat.le_refl _
      · exact sum

theorem bodyByte_inv (st : s.st = .body) (port : PortOk (bodyByte b s)) : (bodyByte b s).Inv := by
  obtain ⟨idx, rsn, some, left, ph, parse⟩ := inv.body_registers st
  obtain ⟨body, consumed, sum⟩ := inv.body_sum st
  by_cases last : s.rem = 1
  · have ends : (bodyByte b s).atBoundary = true := by
      simp only [bodyByte, if_pos last]
      rfl
    exact inv_of_boundary port ends
  · have more := two_le_of_ne_one some last
    have counted := rem_toNat_sub_one some
    have phase : s.ph = phaseAfter (csumCover s.hdr body).length := by rw [phaseAfter_csumCover, ph, consumed]
    have absorbed := csumAbsorb_snoc (csumCover s.hdr body) b
    have covered : csumCover s.hdr body ++ [b] = csumCover s.hdr (body ++ [b]) := rfl
    rw [← acc_eq_ofNat sum, ← phase, covered, phaseAfter_csumCover] at absorbed
    have goes_on : bodyByte b s = (((s.advance 1).setSum (csumAbsorb s.acc s.ph b)).countDown).quiet := if_neg last
    rw [goes_on, absorbed] at port ⊢
    refine inv_of_body port st idx rsn parse (body ++ [b]) ?_ ?_ rfl rfl
    · change (body ++ [b]).length + (s.rem - 1).toNat = (hdrLen s.hdr).toNat
      rw [List.length_append, List.length_singleton, counted]
      omega
    · change 1 ≤ (s.rem - 1).toNat
      omega

theorem skipByte_inv (st : s.st = .skip) (port : PortOk (skipByte s)) : (skipByte s).Inv := by
  obtain ⟨idx, some, left, k, rsn, parse⟩ := inv.skip_registers st
  obtain ⟨sum, ph⟩ := inv.skip_sum st
  by_cases last : s.rem = 1
  · have ends : (skipByte s).atBoundary = true := by
      simp only [skipByte, if_pos last]
      rfl
    exact inv_of_boundary port ends
  · have more := two_le_of_ne_one some last
    have counted : (s.advance 1).countDown.quiet.rem.toNat = s.rem.toNat - 1 := rem_toNat_sub_one some
    have goes_on : skipByte s = (s.advance 1).countDown.quiet := if_neg last
    rw [goes_on] at port ⊢
    refine inv_of_skip port st idx rsn parse ?_ ?_ ph (acc_eq_ofNat sum)
    · omega
    · exact Nat.le_trans (by omega) left

/-- A byte that is accepted keeps the invariants. -/
theorem byteBeat_inv {t : State} (next : byteBeat b s = .next t) (port : PortOk t) : t.Inv := by
  rcases byteBeat_cases b s with ⟨st, idx, is⟩ | ⟨st, idx, is⟩ | ⟨st, is⟩ | ⟨st, is⟩ | ⟨-, is⟩ <;>
    rw [is] at next <;> cases next
  · exact latchHeaderByte_inv inv st idx port
  · have seven : s.idx = 7 := BitVec.eq_of_toNat_eq (by
      have index : s.idx.toNat < 8 := s.idx.isLt
      change _ = 7
      omega)
    exact completeHeader_inv inv st seven port
  · exact bodyByte_inv inv st port
  · exact skipByte_inv inv st port

end

/-! ### The other steps keep the invariants -/

/-- A header class whose body is cut leaves the frame open with the invariants (log entry 8). -/
theorem openFrame_inv {s : State} (h : HeaderBytes) (body : List Byte) (es : List Edge)
    (cut : body.length < (hdrLen h).toNat) (port : PortOk (s.openFrame h (parseCode (hdrParse h)) body es)) :
    (s.openFrame h (parseCode (hdrParse h)) body es).Inv := by
  have left : (hdrLen h - BitVec.ofNat 16 body.length).toNat = (hdrLen h).toNat - body.length := by
    have small : (hdrLen h).toNat < 65536 := (hdrLen h).isLt
    rw [BitVec.toNat_sub, BitVec.toNat_ofNat]
    omega
  cases parse : hdrParse h with
  | ok len sens =>
    rw [← parse]
    rw [openFrame_of_ok s h body parse] at port ⊢
    obtain ⟨rfl, rfl⟩ := hdrParse_ok h len sens parse
    refine inv_of_body port rfl rfl rfl parse body ?_ ?_ (phaseAfter_csumCover h body) rfl
    · change body.length + (hdrLen h - BitVec.ofNat 16 body.length).toNat = (hdrLen h).toNat
      omega
    · change 1 ≤ (hdrLen h - BitVec.ofNat 16 body.length).toNat
      omega
  | err k =>
    rw [← parse]
    rw [openFrame_of_err s h body parse] at port ⊢
    refine inv_of_skip port rfl rfl rfl parse ?_ ?_ rfl rfl
    · change 1 ≤ (hdrLen h - BitVec.ofNat 16 body.length).toNat
      omega
    · change (hdrLen h - BitVec.ofNat 16 body.length).toNat ≤ (hdrLen h).toNat
      omega

/-- A header class at a frame boundary leaves the block at a frame boundary or inside an open frame. -/
theorem runFrame_inv {s t : State} (boundary : s.atBoundary = true) (h : HeaderBytes) (event : List Byte → Event)
    (next : runFrame h (parseCode (hdrParse h)) event s = .next t) (port : PortOk t) : t.Inv := by
  rcases runFrame_cases h (parseCode (hdrParse h)) event s with ⟨-, body, rest, -, ⟨-, is⟩ | ⟨cut, is⟩⟩ | ⟨inside, -⟩
  · rw [is] at next
    cases next
    exact inv_of_boundary port (completeFrame_boundary s h body rest _)
  · rw [is] at next
    cases next
    exact openFrame_inv h body rest cut port
  · rw [boundary] at inside
    cases inside

/-- Settles O48: the reset state is a frame boundary with an empty port. -/
theorem invariantsHoldAtReset : Obligations.InvariantsHoldAtReset := by
  unfold Obligations.InvariantsHoldAtReset
  exact inv_of_boundary ⟨fun _ => rfl, fun valid => nomatch valid⟩ reset_atBoundary

/-- Settles O49, by all a step can do: the port is in order after any step, and each kind of step leaves the registers
that its value of `ST` needs. -/
theorem everyStepKeepsTheInvariants : Obligations.EveryStepKeepsTheInvariants := by
  unfold Obligations.EveryStepKeepsTheInvariants
  intro s t inv next
  have port := portOk_of_step next
  rcases step_cases s with ⟨es, is⟩ | ⟨es, is⟩ | ⟨-, is⟩ | ⟨es, b, -, is⟩ | ⟨es, -, is⟩ | ⟨es, h, -, boundary, is⟩ <;>
    rw [is] at next
  · cases next
    exact (inv.withInput es).quiet
  · cases next
    exact inv_of_boundary port rfl
  · cases next
  · exact byteBeat_inv (inv.withInput es) next port
  · cases next
    exact inv_of_close port
  · exact runFrame_inv (s := s.withInput es) boundary h _ next port

end Sys2Proof.Machine
